-- ==== Sys2Proof/Word.lean ====
section
/-! DEFINITION. The word types of MBCODEC (00_scope.md R7, R8) and the two values of the operand S. -/

namespace Sys2Proof

/-- A byte: 8 bits (R7). -/
abbrev Byte := BitVec 8

/-- A 16-bit unsigned value: CRC, transactionId, protocolId, TCP length (R7). -/
abbrev Half := BitVec 16

/-- A host-visible register, a command word or the data of a 4-byte access: 32 bits (R7, R70). -/
abbrev Word := BitVec 32

/-- The 18 implemented bits of a length register (10_state.md R26 to R29). -/
abbrev Len := BitVec 18

/-- A byte address of the host address space: 20 bits (20_memory.md R50). -/
abbrev Addr := BitVec 20

/-- Operand S of format S (30_encoding.md R73): 0 is the current payload, 1 is the input buffer. -/
inductive Src where
  | payload
  | input
  deriving DecidableEq, Repr

end Sys2Proof
end

