-- ==== Sys2Proof/Asm.lean ====
section
/-! DEFINITION. The names a host program uses: mnemonics (30_encoding.md R75), registers (10_state.md R21), windows
(20_memory.md R51), and the statements of the assembler syntax and pseudo-instructions (R78, R79) as raw terms,
whose operands are still plain numbers. -/

namespace Sys2Proof

/-- The mnemonics of R75. -/
inductive Mnemonic where
  | nop | reset | ibClr | ibPush | obMov | crcInit | crcByte | crcBuf | rtuEnc | rtuDecq | rtuDecr
  | tcpDec | tcpEnc | tcpSetp | tcpSetps | rxPush | rxPop | rxClr
  deriving DecidableEq, Repr

/-- The three command formats (R71, R72, R73). -/
inductive Format where
  | n | b | s
  deriving DecidableEq, Repr

/-- The registers of R21. -/
inductive Reg where
  | id | cmd | status | crc | iblen | oblen | plen | rxlen | tid | pid | tlen | addr | fn | size
  | ibcap | obcap | pbcap | rxcap
  deriving DecidableEq, Repr

/-- The four buffer windows of R51. -/
inductive Win where
  | ibuf | obuf | pbuf | rxq
  deriving DecidableEq, Repr

namespace Asm

/-- A statement of a host program (R78), or a pseudo-instruction (R79), as written: its numbers are not yet checked. -/
inductive Line where
  /-- `M`, `M imm` or `M src`. -/
  | op (m : Mnemonic) (operand : Option Nat)
  /-- `WR reg, v`. -/
  | wr (r : Reg) (v : Nat)
  /-- `RD reg`. -/
  | rd (r : Reg)
  /-- `SB win+i, v`. -/
  | sb (w : Win) (i : Nat) (v : Nat)
  /-- `LB win+i`. -/
  | lb (w : Win) (i : Nat)
  /-- `IB.LOAD b0, …, bk`. -/
  | ibLoad (bs : List Nat)
  /-- `PB.LOAD b0, …, bk`. -/
  | pbLoad (bs : List Nat)
  /-- `CRC.OF b0, …, bk`. -/
  | crcOf (bs : List Nat)
  /-- `CMD w`. -/
  | cmd (w : Nat)
  deriving DecidableEq, Repr

end Asm
end Sys2Proof
end

