-- ==== Sys2Proof/Syntax.lean ====
section
/-! DEFINITION. The commands of MBCODEC: one constructor per row of opcode_table.json (30_encoding.md R75). -/

namespace Sys2Proof

/-- A command, with the operands its word carries: IMM8 (format B, R72) or S (format S, R73). Every other operand
is a register or a buffer, named in the command's rule. -/
inductive Instr where
  | nop
  | reset
  | ibClr
  | ibPush (imm8 : Byte)
  | obMov
  | crcInit
  | crcByte (imm8 : Byte)
  | crcBuf
  | rtuEnc
  | rtuDecq
  | rtuDecr
  | tcpDec
  | tcpEnc
  | tcpSetp (s : Src)
  | tcpSetps (s : Src)
  | rxPush
  | rxPop
  | rxClr
  deriving DecidableEq, Repr

end Sys2Proof
end

