-- ==== Sys2Proof/Decode.lean ====
section
/-! DEFINITION. Command words (30_encoding.md Part A): the opcode map of R75 as data, the decoder of R74, total on
every 32-bit word and rejecting by name, and the encoder. -/

namespace Sys2Proof

/-! ### The opcode map (R75) -/

/-- A row of the opcode map: mnemonic, format, match, mask. -/
structure OpRow where
  mnemonic : Mnemonic
  format   : Format
  pattern  : Word
  mask     : Word
  deriving DecidableEq, Repr

/-- The rows of R75, grouped by unit as there: control, CRC, RTU, TCP, stream. -/
def opcodeTable : List OpRow :=
  [⟨.nop, .n, 0x00000000, 0xFFFFFFFF⟩,
   ⟨.reset, .n, 0x00000001, 0xFFFFFFFF⟩,
   ⟨.ibClr, .n, 0x00000002, 0xFFFFFFFF⟩,
   ⟨.ibPush, .b, 0x00000003, 0xFFFF00FF⟩,
   ⟨.obMov, .n, 0x00000004, 0xFFFFFFFF⟩] ++
  [⟨.crcInit, .n, 0x00000010, 0xFFFFFFFF⟩,
   ⟨.crcByte, .b, 0x00000011, 0xFFFF00FF⟩,
   ⟨.crcBuf, .n, 0x00000012, 0xFFFFFFFF⟩] ++
  [⟨.rtuEnc, .n, 0x00000020, 0xFFFFFFFF⟩,
   ⟨.rtuDecq, .n, 0x00000021, 0xFFFFFFFF⟩,
   ⟨.rtuDecr, .n, 0x00000022, 0xFFFFFFFF⟩] ++
  [⟨.tcpDec, .n, 0x00000030, 0xFFFFFFFF⟩,
   ⟨.tcpEnc, .n, 0x00000031, 0xFFFFFFFF⟩,
   ⟨.tcpSetp, .s, 0x00000032, 0xFFFFFEFF⟩,
   ⟨.tcpSetps, .s, 0x00000033, 0xFFFFFEFF⟩] ++
  [⟨.rxPush, .n, 0x00000040, 0xFFFFFFFF⟩,
   ⟨.rxPop, .n, 0x00000041, 0xFFFFFFFF⟩,
   ⟨.rxClr, .n, 0x00000042, 0xFFFFFFFF⟩]

/-- Word `w` is of row `r` in match-and-mask terms, `(w & mask) = match` (R74). -/
def OpRow.matches (r : OpRow) (w : Word) : Bool := w &&& r.mask == r.pattern

/-- The mnemonic of a command. -/
def Instr.mnemonic : Instr → Mnemonic
  | .nop => .nop
  | .reset => .reset
  | .ibClr => .ibClr
  | .ibPush _ => .ibPush
  | .obMov => .obMov
  | .crcInit => .crcInit
  | .crcByte _ => .crcByte
  | .crcBuf => .crcBuf
  | .rtuEnc => .rtuEnc
  | .rtuDecq => .rtuDecq
  | .rtuDecr => .rtuDecr
  | .tcpDec => .tcpDec
  | .tcpEnc => .tcpEnc
  | .tcpSetp _ => .tcpSetp
  | .tcpSetps _ => .tcpSetps
  | .rxPush => .rxPush
  | .rxPop => .rxPop
  | .rxClr => .rxClr

/-! ### Decoding (R74) -/

/-- Why a word is no command: the two cases of R74 and R76. Both end in E_ILLEGAL. -/
inductive Illegal where
  /-- `w[7:0]` is no row of R75. -/
  | unlistedOpcode (op : Byte)
  /-- `w[7:0]` is a row of R75 and a reserved bit of its format is 1. -/
  | reservedBits (op : Byte)
  deriving DecidableEq, Repr

/-- Field OP, bits 7 to 0 (R71 to R73). -/
def opField (w : Word) : Byte := w.extractLsb' 0 8

/-- Field IMM8, bits 15 to 8 (R72). -/
def immField (w : Word) : Byte := w.extractLsb' 8 8

/-- Field S, bit 8 (R73). -/
def srcField (w : Word) : Src := if w.getLsbD 8 then .input else .payload

/-- Format N: bits 31 to 8 must be 0 (R71). -/
def formatN (w : Word) (i : Instr) : Except Illegal Instr :=
  if w.extractLsb' 8 24 = 0 then .ok i else .error (.reservedBits (opField w))

/-- Format B: bits 31 to 16 must be 0 (R72). -/
def formatB (w : Word) (i : Byte → Instr) : Except Illegal Instr :=
  if w.extractLsb' 16 16 = 0 then .ok (i (immField w)) else .error (.reservedBits (opField w))

/-- Format S: bits 31 to 9 must be 0 (R73). -/
def formatS (w : Word) (i : Src → Instr) : Except Illegal Instr :=
  if w.extractLsb' 9 23 = 0 then .ok (i (srcField w)) else .error (.reservedBits (opField w))

/-- The mnemonic of an opcode; none where the opcode is no row of R75. -/
def mnemonicOf (op : Byte) : Option Mnemonic :=
  match op.toNat with
  | 0x00 => some .nop
  | 0x01 => some .reset
  | 0x02 => some .ibClr
  | 0x03 => some .ibPush
  | 0x04 => some .obMov
  | 0x10 => some .crcInit
  | 0x11 => some .crcByte
  | 0x12 => some .crcBuf
  | 0x20 => some .rtuEnc
  | 0x21 => some .rtuDecq
  | 0x22 => some .rtuDecr
  | 0x30 => some .tcpDec
  | 0x31 => some .tcpEnc
  | 0x32 => some .tcpSetp
  | 0x33 => some .tcpSetps
  | 0x40 => some .rxPush
  | 0x41 => some .rxPop
  | 0x42 => some .rxClr
  | _    => none

/-- A word whose opcode is that of `m`, by the format of `m`. -/
def decodeAs (w : Word) : Mnemonic → Except Illegal Instr
  | .nop      => formatN w .nop
  | .reset    => formatN w .reset
  | .ibClr    => formatN w .ibClr
  | .ibPush   => formatB w .ibPush
  | .obMov    => formatN w .obMov
  | .crcInit  => formatN w .crcInit
  | .crcByte  => formatB w .crcByte
  | .crcBuf   => formatN w .crcBuf
  | .rtuEnc   => formatN w .rtuEnc
  | .rtuDecq  => formatN w .rtuDecq
  | .rtuDecr  => formatN w .rtuDecr
  | .tcpDec   => formatN w .tcpDec
  | .tcpEnc   => formatN w .tcpEnc
  | .tcpSetp  => formatS w .tcpSetp
  | .tcpSetps => formatS w .tcpSetps
  | .rxPush   => formatN w .rxPush
  | .rxPop    => formatN w .rxPop
  | .rxClr    => formatN w .rxClr

/-- Decoding a command word (R74): by its opcode, then its reserved bits. -/
def decode (w : Word) : Except Illegal Instr :=
  match mnemonicOf (opField w) with
  | some m => decodeAs w m
  | none   => .error (.unlistedOpcode (opField w))

/-! ### Encoding (R71 to R73, R75) -/

/-- A word of format N. -/
def wordN (op : Byte) : Word := op.setWidth 32

/-- A word of format B: `match OR (IMM8 << 8)` (R78). -/
def wordB (op : Byte) (imm8 : Byte) : Word := op.setWidth 32 ||| (imm8.setWidth 32 <<< 8)

/-- The bit of operand S (R73). -/
def Src.bit : Src → BitVec 1
  | .payload => 0
  | .input   => 1

/-- A word of format S: `match OR (S << 8)` (R78). -/
def wordS (op : Byte) (s : Src) : Word := op.setWidth 32 ||| (s.bit.setWidth 32 <<< 8)

/-- The word of a command. -/
def encode : Instr → Word
  | .nop          => wordN 0x00
  | .reset        => wordN 0x01
  | .ibClr        => wordN 0x02
  | .ibPush imm8  => wordB 0x03 imm8
  | .obMov        => wordN 0x04
  | .crcInit      => wordN 0x10
  | .crcByte imm8 => wordB 0x11 imm8
  | .crcBuf       => wordN 0x12
  | .rtuEnc       => wordN 0x20
  | .rtuDecq      => wordN 0x21
  | .rtuDecr      => wordN 0x22
  | .tcpDec       => wordN 0x30
  | .tcpEnc       => wordN 0x31
  | .tcpSetp s    => wordS 0x32 s
  | .tcpSetps s   => wordS 0x33 s
  | .rxPush       => wordN 0x40
  | .rxPop        => wordN 0x41
  | .rxClr        => wordN 0x42

/-! ### The table's numbering of an instruction's bits -/

/-- The command word whose low `nbits` bits are those of `w`, every bit above them 0. A command is one 32-bit word
(R70), and a host bus has no byte lanes (20_memory.md R56): data bit `i` is word bit `i`. -/
def tableWord (nbits w : Nat) : Word := BitVec.ofNat 32 (w % 2 ^ nbits)

/-- The command the decoder reads from that word; none where it rejects the word. -/
def decodeTableWord (nbits w : Nat) : Option Instr := (decode (tableWord nbits w)).toOption

end Sys2Proof
end

