-- ==== Sys2Proof/Config.lean ====
section
/-! DEFINITION. The implementation parameters of MBCODEC (00_scope.md R6): the four buffer capacities.
They are plain data, so that one model covers every legal choice; a state carries its own (log 5). -/

namespace Sys2Proof.Config

/-- The capacities in bytes of the four byte buffers (R6, R36). -/
structure Params where
  ibufCap : Nat
  obufCap : Nat
  pbufCap : Nat
  rxqCap  : Nat
  deriving DecidableEq, Repr

/-- The default of every parameter, 131072 (R6). -/
def Params.default : Params :=
  { ibufCap := 131072, obufCap := 131072, pbufCap := 131072, rxqCap := 131072 }

/-- The legal range of each parameter, as the table of R6 gives it. -/
abbrev Params.Legal (p : Params) : Prop :=
  (65541 ≤ p.ibufCap ∧ p.ibufCap ≤ 131072) ∧ (65541 ≤ p.obufCap ∧ p.obufCap ≤ 131072) ∧
  (65533 ≤ p.pbufCap ∧ p.pbufCap ≤ 131072) ∧ (65541 ≤ p.rxqCap ∧ p.rxqCap ≤ 131072)

end Sys2Proof.Config
end

