-- ==== Sys2Proof/Machine/State.lean ====
section
/-! DEFINITION. The state of MBCODEC (10_state.md), the host's side of its bus, and the state after reset
(70_reset_and_hazards.md R220). -/

namespace Sys2Proof.Machine

/-- The status codes of STATUS.ERR (60_exceptions.md R200); codes 7 to 15 are never written. -/
inductive Err where
  /-- E_OK, 0. -/
  | ok
  /-- E_SHORT, 1. -/
  | short
  /-- E_CRC, 2. -/
  | crc
  /-- E_LENGTH, 3. -/
  | length
  /-- E_OVERFLOW, 4. -/
  | overflow
  /-- E_NOFRAME, 5. -/
  | noFrame
  /-- E_ILLEGAL, 6. -/
  | illegal
  deriving DecidableEq, Repr

/-- The bytes of an array, keyed by index, in one canonical form: indices strictly rising and no byte 0x00 listed,
which is what an unlisted index reads as (the reset contents, R37 and R220; log 7). -/
abbrev Memory := List Host.Cell

/-- A host bus access (00_scope.md R11): `MemRead(addr, n)` or `MemWrite(addr, n, v)` with `n` 1 or 4 (log 8). -/
inductive Access where
  | read1  (addr : Addr)
  | read4  (addr : Addr)
  | write1 (addr : Addr) (v : Byte)
  | write4 (addr : Addr) (v : Word)
  deriving DecidableEq, Repr

/-- What reaches the block from outside: an access, or a change of the reset input (R220). -/
inductive HostEvent where
  | access (a : Access)
  | assertReset
  | releaseReset
  deriving DecidableEq, Repr

/-- The read data of the last event served: none after a write or a change of the reset input (log 3). -/
inductive Reply where
  | none
  | byte (v : Byte)
  | word (v : Word)
  deriving DecidableEq, Repr

/-- Why the machine stops. -/
inductive Fault where
  /-- Raised by the step when the host's next access is issued while the reset input is asserted: "a model gives the
  host no access step while reset is asserted" (R220; 93_implementation_defined.md A10, "stuck"). Safe: the model
  stops where a block would go on. -/
  | accessDuringReset
  deriving DecidableEq, Repr

/-- Why an instruction has no meaning. -/
inductive Refusal where
  /-- Raised by an arm of `exec` for an instruction that has no meaning yet; no arm raises it. Safe. -/
  | notModelled (mnemonic : String)
  deriving DecidableEq, Repr

/-- Every piece of state of 10_state.md, the capacities of 00_scope.md R6, and the host's side of the bus. FE, RXAV,
RXLEN, ID and the CRC table are computed or constant and not stored (R22, R24, R29, R39, R40). -/
structure State where
  /-- The four capacities, read through IBCAP to RXCAP (R36). They never change. -/
  params : Config.Params
  /-- STATUS.ERR (R24). -/
  err : Err
  /-- STATUS.BERR (R24). -/
  berr : Bool
  /-- CRC (R25). -/
  crc : Half
  /-- IBLEN (R26). -/
  iblen : Len
  /-- OBLEN (R27). -/
  oblen : Len
  /-- PLEN (R28). -/
  plen : Len
  /-- TID (R30). -/
  tid : Half
  /-- PID (R31). -/
  pid : Half
  /-- TLEN (R32). -/
  tlen : Half
  /-- ADDR (R33). -/
  addr : Byte
  /-- FN (R34). -/
  fn : Byte
  /-- SIZE (R35). -/
  size : Byte
  /-- IBUF (R37). -/
  ibuf : Memory
  /-- OBUF (R37). -/
  obuf : Memory
  /-- PBUF (R37). -/
  pbuf : Memory
  /-- RXQ, front first (R38). -/
  rxq : List Byte
  /-- The model's own: what the host has issued and the block has not served, oldest first (log 1). -/
  pending : List HostEvent
  /-- The model's own: the reset input is asserted (log 4). -/
  resetPin : Bool
  /-- The model's own: what the last event served returned to the host (log 3). -/
  reply : Reply
  deriving DecidableEq, Repr

/-- The machine right after reset (R220), with the default capacities (R6). The last three fields are the host's side:
nothing issued, reset released, nothing returned (DESIGN CHOICE, log 6). -/
def State.reset : State where
  params := Config.Params.default
  err := .ok
  berr := false
  crc := 0xFFFF
  iblen := 0
  oblen := 0
  plen := 0
  tid := 0
  pid := 0
  tlen := 0
  addr := 0
  fn := 0
  size := 0
  ibuf := []
  obuf := []
  pbuf := []
  rxq := []
  pending := []
  resetPin := false
  reply := .none

/-- The three outcomes of a meaning or a step. -/
abbrev Result := Host.Outcome State Fault Refusal

end Sys2Proof.Machine
end

