-- ==== Sys2Proof/Machine/Ops.lean ====
section
/-! DEFINITION. The named operations over values, byte sequences, buffers and registers (00_scope.md R8 to R12), how a
command ends, the bus error and the reset. -/

namespace Sys2Proof.Machine

/-! ### Values (R8) -/

/-- `v[7:0]`. -/
def lo8 (v : Half) : Byte := v.extractLsb' 0 8

/-- `v[15:8]`. -/
def hi8 (v : Half) : Byte := v.extractLsb' 8 8

/-- The 16-bit value `h * 256 + l`. -/
def be16 (h l : Byte) : Half := h ++ l

/-- A count stored in a length register: its low 18 bits. Every count a command stores fits (log 9). -/
def len18 (n : Nat) : Len := BitVec.ofNat 18 n

/-! ### Byte sequences (R9) -/

/-- Byte `i` of a sequence. The rules index only below the length. -/
def byteOf (b : List Byte) (i : Nat) : Byte := b.getD i 0

/-- `s[lo..hi)`. -/
def slice (b : List Byte) (lo hi : Nat) : List Byte := (b.drop lo).take (hi - lo)

/-! ### Buffers (R10, R37) -/

/-- The byte at index `i`; an unlisted byte is 0x00. -/
def Memory.byteAt : Memory → Nat → Byte
  | [], _ => 0
  | (a, b) :: rest, i => if a = i then b else Memory.byteAt rest i

/-- `B[i] <- v`; a byte 0x00 is not listed. -/
def Memory.setByte (m : Memory) (i : Nat) (v : Byte) : Memory :=
  m.filter (fun c => decide (c.1 < i)) ++ (if v = 0 then [] else [(i, v)]) ++
    m.filter (fun c => decide (i < c.1))

/-- The cells of a sequence laid out from index `i` on. -/
def cellsFrom : Nat → List Byte → Memory
  | _, [] => []
  | i, b :: bs => if b = 0 then cellsFrom (i + 1) bs else (i, b) :: cellsFrom (i + 1) bs

/-- `store(B, s)`: writes `B[i] <- s[i]` below `len(s)` and leaves the bytes at `len(s)` and above. -/
def Memory.store (m : Memory) (s : List Byte) : Memory :=
  cellsFrom 0 s ++ m.filter (fun c => decide (s.length ≤ c.1))

/-- `seq(B, n)`, the sequence `[B[0], …, B[n-1]]`. -/
def Memory.seq (m : Memory) (n : Nat) : List Byte := (List.range n).map m.byteAt

/-- The canonical form of a buffer. -/
abbrev Memory.wf (m : Memory) : Prop :=
  m.Pairwise (fun c d => c.1 < d.1) ∧ ∀ c ∈ m, c.2 ≠ 0

/-- Every listed index is below `cap`. -/
abbrev Memory.within (m : Memory) (cap : Nat) : Prop := ∀ c ∈ m, c.1 < cap

/-! ### Register updates shared by commands -/

/-- Write STATUS.ERR. -/
def State.setErr (s : State) (e : Err) : State := { s with err := e }

/-- `store(IBUF, d)` and `IBLEN <- len(d)`. -/
def State.storeIbuf (s : State) (d : List Byte) : State :=
  { s with ibuf := s.ibuf.store d, iblen := len18 d.length }

/-- `store(OBUF, d)` and `OBLEN <- len(d)`. -/
def State.storeObuf (s : State) (d : List Byte) : State :=
  { s with obuf := s.obuf.store d, oblen := len18 d.length }

/-- `store(PBUF, d)` and `PLEN <- len(d)`. -/
def State.storePbuf (s : State) (d : List Byte) : State :=
  { s with pbuf := s.pbuf.store d, plen := len18 d.length }

/-- Write the frame's address and function bytes. -/
def State.setFrame (s : State) (address function : Byte) : State :=
  { s with addr := address, fn := function }

/-! ### How a command ends (R12) -/

/-- `raise Err(E)`: STATUS.ERR is written and nothing else (R12, R204). It saves no state and sends control nowhere
(R209), and there is no return from it (R210). -/
def raise (e : Err) (s : State) : Result := .next (s.setErr e)

/-- `done`: after the writes made so far, STATUS.ERR <- E_OK. -/
def done (s : State) : Result := .next (s.setErr .ok)

/-! ### Bus errors (20_memory.md R55) -/

/-- STATUS.BERR <- 1, and nothing else. -/
def State.busError (s : State) : State := { s with berr := true }

/-! ### Reset (70_reset_and_hazards.md R220) -/

/-- The state the block takes, whatever it held before. The capacities are constants, and what the host has issued is
no state of the block. -/
def State.applyReset (s : State) : State :=
  { State.reset with
      params := s.params, pending := s.pending, resetPin := s.resetPin, reply := s.reply }

end Sys2Proof.Machine
end

