-- ==== Sys2Proof/Machine/Flags.lean ====
section
/-! DEFINITION. The fields of STATUS (10_state.md R24): the code of ERR, the flags FE and RXAV, which are computed and
not stored, and the word a read of STATUS returns. -/

namespace Sys2Proof.Machine

/-- The numeric code of STATUS.ERR (60_exceptions.md R200). -/
def Err.code : Err → BitVec 4
  | .ok       => 0
  | .short    => 1
  | .crc      => 2
  | .length   => 3
  | .overflow => 4
  | .noFrame  => 5
  | .illegal  => 6

/-- The class FrameError: E_SHORT, E_CRC, E_LENGTH (R201). -/
def Err.isFrameError : Err → Bool
  | .short | .crc | .length => true
  | .ok | .overflow | .noFrame | .illegal => false

/-- `flen(q) = be16(q[4], q[5]) + 6` (43_stream.md R160). -/
def flen (q : List Byte) : Nat := (be16 (byteOf q 4) (byteOf q 5)).toNat + 6

/-- `avail(q)`: at least 6 bytes and at least `flen(q)` bytes (R160). -/
def avail (q : List Byte) : Bool := decide (6 ≤ q.length) && decide (flen q ≤ q.length)

/-- STATUS.FE (R24, R201). -/
def State.fe (s : State) : Bool := s.err.isFrameError

/-- STATUS.RXAV (R24, R40). -/
def State.rxav (s : State) : Bool := avail s.rxq

/-- One bit as a 32-bit value. -/
def bit32 (b : Bool) : Word := (BitVec.ofBool b).setWidth 32

/-- STATUS as read: ERR in bits 3 to 0, FE in bit 4, RXAV in bit 8, BERR in bit 16, every other bit 0 (R24). -/
def State.statusWord (s : State) : Word :=
  s.err.code.setWidth 32 ||| (bit32 s.fe <<< 4) ||| (bit32 s.rxav <<< 8) ||| (bit32 s.berr <<< 16)

end Sys2Proof.Machine
end

