-- ==== Sys2Proof/Machine/Operands.lean ====
section
/-! DEFINITION. The sequences a command reads: IBUF[0..IBLEN), OBUF[0..OBLEN), PBUF[0..PLEN), and the data operand S
selects (30_encoding.md R73). Operand IMM8 is used as it stands (R72). -/

namespace Sys2Proof.Machine

/-- `seq(IBUF, IBLEN)`. -/
def State.ibSeq (s : State) : List Byte := s.ibuf.seq s.iblen.toNat

/-- `seq(OBUF, OBLEN)`. -/
def State.obSeq (s : State) : List Byte := s.obuf.seq s.oblen.toNat

/-- `seq(PBUF, PLEN)`. -/
def State.pbSeq (s : State) : List Byte := s.pbuf.seq s.plen.toNat

/-- `d <- (S = 1) ? seq(IBUF, IBLEN) : seq(PBUF, PLEN)` (42_tcp.md R142, R143). -/
def State.srcData (s : State) : Src → List Byte
  | .payload => s.pbSeq
  | .input   => s.ibSeq

end Sys2Proof.Machine
end

