-- ==== Sys2Proof/Machine/Control.lean ====
section
/-! DEFINITION. The control and buffer commands (44_control.md): NOP, RESET, IB.CLR, IB.PUSH, OB.MOV. -/

namespace Sys2Proof.Machine

/-- NOP (R170). -/
def execNop (s : State) : Result := done s

/-- RESET (R171): the reset of R220. -/
def execReset (s : State) : Result := done s.applyReset

/-- IB.CLR (R172): the bytes of IBUF stay. -/
def execIbClr (s : State) : Result := done { s with iblen := 0 }

/-- IB.PUSH imm8 (R173). -/
def execIbPush (imm8 : Byte) (s : State) : Result :=
  if s.iblen.toNat = s.params.ibufCap then raise .overflow s
  else done { s with ibuf := s.ibuf.setByte s.iblen.toNat imm8, iblen := len18 (s.iblen.toNat + 1) }

/-- OB.MOV (R174). -/
def execObMov (s : State) : Result :=
  if s.oblen.toNat > s.params.ibufCap then raise .overflow s
  else done (s.storeIbuf s.obSeq)

end Sys2Proof.Machine
end

