-- ==== Sys2Proof/Machine/Rtu.lean ====
section
/-! DEFINITION. The RTU frame encoder and decoder (41_rtu.md): RTU.ENC, RTU.DECQ, RTU.DECR, over the frame layouts of
30_encoding.md R81 and R82. No RTU command reads or writes CRC. -/

namespace Sys2Proof.Machine

/-- The request-form frame of the current frame registers: address, function, payload, CRC low byte first (R81). -/
def State.rtuFrame (s : State) : List Byte :=
  let m := [s.addr, s.fn] ++ s.pbSeq
  m ++ crcBytes (checksum m)

/-- The checks of a decode, in the order of R206: E_SHORT, E_CRC, E_OVERFLOW. `overhead` is the bytes of the frame that
are not payload, 4 in request form and 5 in response form. -/
def State.rtuError (s : State) (overhead : Nat) : Option Err :=
  let n := s.iblen.toNat
  if n < 5 then some .short
  else if !crcGood s.ibSeq then some .crc
  else if n - overhead > s.params.pbufCap then some .overflow
  else none

/-- RTU.ENC (R120). -/
def execRtuEnc (s : State) : Result :=
  if s.plen.toNat + 4 > s.params.obufCap then raise .overflow s
  else done (s.storeObuf s.rtuFrame)

/-- RTU.DECQ (R121). -/
def execRtuDecq (s : State) : Result :=
  match s.rtuError 4 with
  | some e => raise e s
  | none =>
    let n := s.iblen.toNat
    let b := s.ibSeq
    done ((s.setFrame (byteOf b 0) (byteOf b 1)).storePbuf (slice b 2 (n - 2)))

/-- RTU.DECR (R122): the size byte is stored and not checked. -/
def execRtuDecr (s : State) : Result :=
  match s.rtuError 5 with
  | some e => raise e s
  | none =>
    let n := s.iblen.toNat
    let b := s.ibSeq
    done ({ s.setFrame (byteOf b 0) (byteOf b 1) with size := byteOf b 2 }.storePbuf (slice b 3 (n - 2)))

end Sys2Proof.Machine
end

