-- ==== Sys2Proof/Machine/Stream.lean ====
section
/-! DEFINITION. The TCP stream demultiplexer (43_stream.md): RX.PUSH, RX.POP, RX.CLR. -/

namespace Sys2Proof.Machine

/-- RX.PUSH (R161): all the bytes or none. -/
def execRxPush (s : State) : Result :=
  if s.rxq.length + s.iblen.toNat > s.params.rxqCap then raise .overflow s
  else done { s with rxq := s.rxq ++ s.ibSeq }

/-- RX.POP (R162): the frame is taken, not checked. -/
def execRxPop (s : State) : Result :=
  if !avail s.rxq then raise .noFrame s
  else
    let k := flen s.rxq
    if k > s.params.ibufCap then raise .overflow s
    else done { s.storeIbuf (s.rxq.take k) with rxq := s.rxq.drop k }

/-- RX.CLR (R163). -/
def execRxClr (s : State) : Result := done { s with rxq := [] }

end Sys2Proof.Machine
end

