-- ==== Sys2Proof/Machine/Tcp.lean ====
section
/-! DEFINITION. The TCP frame codec (42_tcp.md): TCP.DEC, TCP.ENC, TCP.SETP, TCP.SETPS, over the frame layout of
30_encoding.md R83 and the payload shape of R84. -/

namespace Sys2Proof.Machine

/-- The frame of the current frame registers with length field `l`: big-endian header, address, function, payload
(R83). -/
def State.tcpFrame (s : State) (l : Half) : List Byte :=
  [hi8 s.tid, lo8 s.tid, hi8 s.pid, lo8 s.pid, hi8 l, lo8 l, s.addr, s.fn] ++ s.pbSeq

/-- The payload-with-size shape: a one-byte count, then the data (R84). -/
def withSize (d : List Byte) : List Byte := BitVec.ofNat 8 d.length :: d

/-- TCP.DEC (R140): protocolId is not checked. -/
def execTcpDec (s : State) : Result :=
  let n := s.iblen.toNat
  let b := s.ibSeq
  let l := be16 (byteOf b 4) (byteOf b 5)
  if n < 8 then raise .short s
  else if n ≠ l.toNat + 6 then raise .length s
  else
    let h := { s with
      tid := be16 (byteOf b 0) (byteOf b 1), pid := be16 (byteOf b 2) (byteOf b 3), tlen := l }
    done ((h.setFrame (byteOf b 6) (byteOf b 7)).storePbuf (slice b 8 n))

/-- TCP.ENC (R141): the length field is computed from PLEN, and TLEN takes it. -/
def execTcpEnc (s : State) : Result :=
  if s.plen.toNat > 65533 then raise .overflow s
  else if s.plen.toNat + 8 > s.params.obufCap then raise .overflow s
  else
    let l : Half := BitVec.ofNat 16 (s.plen.toNat + 2)
    done { s.storeObuf (s.tcpFrame l) with tlen := l }

/-- TCP.SETP s (R142). -/
def execTcpSetp (src : Src) (s : State) : Result :=
  let d := s.srcData src
  if d.length > s.params.pbufCap then raise .overflow s
  else done (s.storePbuf d)

/-- TCP.SETPS s (R143): the data is read whole before PBUF is written. -/
def execTcpSetps (src : Src) (s : State) : Result :=
  let d := s.srcData src
  if d.length > 255 then raise .overflow s
  else if d.length + 1 > s.params.pbufCap then raise .overflow s
  else done (s.storePbuf (withSize d))

end Sys2Proof.Machine
end

