-- ==== Sys2Proof/Machine/Dispatch.lean ====
section
/-! DEFINITION. The command dispatcher: one arm per constructor of Instr. -/

namespace Sys2Proof.Machine

def exec (i : Instr) (s : State) : Host.Outcome State Fault Refusal :=
  match i with
  -- control and buffers
  | .nop => Sys2Proof.Machine.execNop s
  | .reset => Sys2Proof.Machine.execReset s
  | .ibClr => Sys2Proof.Machine.execIbClr s
  | .ibPush imm8 => Sys2Proof.Machine.execIbPush imm8 s
  | .obMov => Sys2Proof.Machine.execObMov s
  -- CRC
  | .crcInit => Sys2Proof.Machine.execCrcInit s
  | .crcByte imm8 => Sys2Proof.Machine.execCrcByte imm8 s
  | .crcBuf => Sys2Proof.Machine.execCrcBuf s
  -- RTU
  | .rtuEnc => Sys2Proof.Machine.execRtuEnc s
  | .rtuDecq => Sys2Proof.Machine.execRtuDecq s
  | .rtuDecr => Sys2Proof.Machine.execRtuDecr s
  -- TCP
  | .tcpDec => Sys2Proof.Machine.execTcpDec s
  | .tcpEnc => Sys2Proof.Machine.execTcpEnc s
  | .tcpSetp src => Sys2Proof.Machine.execTcpSetp src s
  | .tcpSetps src => Sys2Proof.Machine.execTcpSetps src s
  -- stream
  | .rxPush => Sys2Proof.Machine.execRxPush s
  | .rxPop => Sys2Proof.Machine.execRxPop s
  | .rxClr => Sys2Proof.Machine.execRxClr s

end Sys2Proof.Machine
end

