-- ==== Sys2Proof/WellFormed.lean ====
section
/-! DEFINITION. What an assembler refuses (30_encoding.md R78). A value of `Instr` has no ill-formed case: its
operand types admit exactly the values R72 and R73 admit. The raw statements of Asm.lean are where a check is due. -/

namespace Sys2Proof

/-- The format of each mnemonic (R75). -/
def Mnemonic.format : Mnemonic → Format
  | .ibPush | .crcByte => .b
  | .tcpSetp | .tcpSetps => .s
  | .nop | .reset | .ibClr | .obMov | .crcInit | .crcBuf | .rtuEnc | .rtuDecq | .rtuDecr
  | .tcpDec | .tcpEnc | .rxPush | .rxPop | .rxClr => .n

/-- The first address of each window (R51, R78). -/
def Win.base : Win → Nat
  | .ibuf => 0x20000
  | .obuf => 0x40000
  | .pbuf => 0x60000
  | .rxq  => 0x80000

namespace Asm

/-- A number is a byte. -/
def isByte (v : Nat) : Bool := decide (v ≤ 255)

/-- An address of the host address space (20_memory.md R50). -/
def isAddr (a : Nat) : Bool := decide (a ≤ 0xFFFFF)

/-- A 32-bit value. -/
def isWord (v : Nat) : Bool := decide (v ≤ 0xFFFFFFFF)

/-- The operand each format takes: none; `imm` from 0 to 255; `src` 0 (PB) or 1 (IB) (R78). -/
def operandOk : Format → Option Nat → Bool
  | .n, none     => true
  | .b, some imm => isByte imm
  | .s, some src => decide (src ≤ 1)
  | .n, some _   => false
  | .b, none     => false
  | .s, none     => false

/-- What the assembler accepts. -/
def Line.wf : Line → Bool
  | .op m operand => operandOk m.format operand
  | .wr _ v       => isWord v
  | .rd _         => true
  | .sb w i v     => isAddr (w.base + i) && isByte v
  | .lb w i       => isAddr (w.base + i)
  | .ibLoad bs    => bs.all isByte
  | .pbLoad bs    => bs.all isByte
  | .crcOf bs     => bs.all isByte
  | .cmd w        => isWord w

end Asm
end Sys2Proof
end

