-- ==== Sys2Proof/Machine/Map.lean ====
section
/-! DEFINITION. The host address map (20_memory.md R51, 10_state.md R21): which register or which byte of which window
an address reaches. An address that reaches nothing is a bus error (R55, R205). -/

namespace Sys2Proof.Machine

/-- The register at an address of the register window (R21). Reserved ranges, unassigned offsets and addresses that are
no multiple of 4 reach none (R51, R53). -/
def regAt (a : Addr) : Option Reg :=
  match a.toNat with
  | 0x00 => some .id
  | 0x04 => some .cmd
  | 0x08 => some .status
  | 0x0C => some .crc
  | 0x10 => some .iblen
  | 0x14 => some .oblen
  | 0x18 => some .plen
  | 0x1C => some .rxlen
  | 0x20 => some .tid
  | 0x24 => some .pid
  | 0x28 => some .tlen
  | 0x2C => some .addr
  | 0x30 => some .fn
  | 0x34 => some .size
  | 0x40 => some .ibcap
  | 0x44 => some .obcap
  | 0x48 => some .pbcap
  | 0x4C => some .rxcap
  | _    => none

/-- The offset of each register (R21); the register window starts at address 0 (R51). -/
def regOffset : Reg → Addr
  | .id     => 0x00
  | .cmd    => 0x04
  | .status => 0x08
  | .crc    => 0x0C
  | .iblen  => 0x10
  | .oblen  => 0x14
  | .plen   => 0x18
  | .rxlen  => 0x1C
  | .tid    => 0x20
  | .pid    => 0x24
  | .tlen   => 0x28
  | .addr   => 0x2C
  | .fn     => 0x30
  | .size   => 0x34
  | .ibcap  => 0x40
  | .obcap  => 0x44
  | .pbcap  => 0x48
  | .rxcap  => 0x4C

/-- The capacity of the buffer behind a window (R51). -/
def winCap (p : Config.Params) : Win → Nat
  | .ibuf => p.ibufCap
  | .obuf => p.obufCap
  | .pbuf => p.pbufCap
  | .rxq  => p.rxqCap

/-- The window an address lies in: each is 128 KiB, so address bits 19 to 17 tell (R51). -/
def winOf (a : Addr) : Option Win :=
  match (a.extractLsb' 17 3).toNat with
  | 1 => some .ibuf
  | 2 => some .obuf
  | 3 => some .pbuf
  | 4 => some .rxq
  | _ => none

/-- The offset of an address in its window: bits 16 to 0. -/
def winOffset (a : Addr) : Nat := (a.extractLsb' 0 17).toNat

/-- The window and index a 1-byte access reaches; an offset at or above the capacity reaches none (R51). -/
def winAt (p : Config.Params) (a : Addr) : Option (Win × Nat) :=
  match winOf a with
  | some w => if winOffset a < winCap p w then some (w, winOffset a) else none
  | none   => none

end Sys2Proof.Machine
end

