-- ==== Sys2Proof/Machine/Bus.lean ====
section
/-! DEFINITION. Host bus accesses (20_memory.md): register reads and writes, window reads and writes, bus errors, the
write to CMD that runs a command, and the reset input. -/

namespace Sys2Proof.Machine

/-! ### Registers (10_state.md R22 to R36, R42) -/

/-- The 32-bit value a read returns. -/
def readReg (s : State) : Reg → Word
  | .id     => 0x4D420100
  | .cmd    => 0
  | .status => s.statusWord
  | .crc    => s.crc.setWidth 32
  | .iblen  => s.iblen.setWidth 32
  | .oblen  => s.oblen.setWidth 32
  | .plen   => s.plen.setWidth 32
  | .rxlen  => (len18 s.rxq.length).setWidth 32
  | .tid    => s.tid.setWidth 32
  | .pid    => s.pid.setWidth 32
  | .tlen   => s.tlen.setWidth 32
  | .addr   => s.addr.setWidth 32
  | .fn     => s.fn.setWidth 32
  | .size   => s.size.setWidth 32
  | .ibcap  => (len18 s.params.ibufCap).setWidth 32
  | .obcap  => (len18 s.params.obufCap).setWidth 32
  | .pbcap  => (len18 s.params.pbufCap).setWidth 32
  | .rxcap  => (len18 s.params.rxqCap).setWidth 32

/-- A write to CMD runs the command whose word is `w` (R23); a word that is no command raises E_ILLEGAL and has no other
effect (30_encoding.md R74). -/
def runCommand (w : Word) (s : State) : Result :=
  match decode w with
  | .ok i    => exec i s
  | .error _ => raise .illegal s

/-- A write of data `d` to a register (R22 to R36). A length write above the capacity is ignored (R26, R28); a write to
a read-only register has no effect and is no bus error (R42). -/
def writeReg (d : Word) (s : State) : Reg → Result
  | .cmd    => runCommand d s
  | .status => .next { s with berr := s.berr && !d.getLsbD 16 }
  | .crc    => .next { s with crc := d.setWidth 16 }
  | .iblen  => .next (if d.toNat ≤ s.params.ibufCap then { s with iblen := d.setWidth 18 } else s)
  | .plen   => .next (if d.toNat ≤ s.params.pbufCap then { s with plen := d.setWidth 18 } else s)
  | .tid    => .next { s with tid := d.setWidth 16 }
  | .pid    => .next { s with pid := d.setWidth 16 }
  | .tlen   => .next { s with tlen := d.setWidth 16 }
  | .addr   => .next { s with addr := d.setWidth 8 }
  | .fn     => .next { s with fn := d.setWidth 8 }
  | .size   => .next { s with size := d.setWidth 8 }
  | .id | .oblen | .rxlen | .ibcap | .obcap | .pbcap | .rxcap => .next s

/-! ### Windows (R52) -/

/-- The byte a window read returns; past the end of the queue RXQ reads 0x00. -/
def readWin (s : State) (i : Nat) : Win → Byte
  | .ibuf => s.ibuf.byteAt i
  | .obuf => s.obuf.byteAt i
  | .pbuf => s.pbuf.byteAt i
  | .rxq  => byteOf s.rxq i

/-- A window write changes the byte and no length register; the OBUF and RXQ windows are read-only (R51). -/
def writeWin (v : Byte) (s : State) (i : Nat) : Win → State
  | .ibuf => { s with ibuf := s.ibuf.setByte i v }
  | .pbuf => { s with pbuf := s.pbuf.setByte i v }
  | .obuf | .rxq => s.busError

/-! ### Accesses (R53 to R55) -/

/-- One host access, served whole (R58). A bus-error read returns 0 in every data bit (R55). -/
def hostAccess (s : State) : Access → Result
  | .read4 a =>
    match regAt a with
    | some r => .next { s with reply := .word (readReg s r) }
    | none   => .next { s.busError with reply := .word 0 }
  | .write4 a d =>
    match regAt a with
    | some r => writeReg d s r
    | none   => .next s.busError
  | .read1 a =>
    match winAt s.params a with
    | some (w, i) => .next { s with reply := .byte (readWin s i w) }
    | none        => .next { s.busError with reply := .byte 0 }
  | .write1 a v =>
    match winAt s.params a with
    | some (w, i) => .next (writeWin v s i w)
    | none        => .next s.busError

/-- Take the oldest event off the host's list; `rest` is what follows it. -/
def State.advance (s : State) (rest : List HostEvent) : State :=
  { s with pending := rest, reply := .none }

/-- Serve one event. While the reset input is asserted there is no access step (R220, log 4). -/
def serve (s : State) : HostEvent → Result
  | .access a     => if s.resetPin then .fault .accessDuringReset else hostAccess s a
  | .assertReset  => .next { s.applyReset with resetPin := true }
  | .releaseReset => .next { s with resetPin := false }

/-- The host's write of a command word to CMD (R23, R70). -/
def cmdWrite (w : Word) : HostEvent := .access (.write4 (regOffset .cmd) w)

end Sys2Proof.Machine
end

