-- ==== Sys2Proof/Machine/Step.lean ====
section
/-! DEFINITION. One step: the block serves the oldest event the host has issued (00_scope.md R5, 20_memory.md R60). -/

namespace Sys2Proof.Machine

/-- With nothing issued the block, being passive, keeps its state (R5, log 2). -/
def step (s : State) : Host.Outcome State Fault Refusal :=
  match s.pending with
  | []        => .next s
  | e :: rest => serve (s.advance rest) e

/-- `s` with the reset input released and a host write of the table's word to CMD issued before anything else, so that
the next step decodes and runs it (log 6). -/
def State.withFetchWord (s : State) (nbits w : Nat) : State :=
  { s with pending := cmdWrite (tableWord nbits w) :: s.pending, resetPin := false }

end Sys2Proof.Machine
end

