-- ==== Sys2Proof/Machine/Assembler.lean ====
section
/-! DEFINITION. The assembler (30_encoding.md R78) and its pseudo-instructions (R79): a well-formed statement is a
sequence of host accesses; an ill-formed one is refused. -/

namespace Sys2Proof.Asm

open Sys2Proof.Machine

/-- The host write of a command. -/
def command (i : Instr) : Access := .write4 (regOffset .cmd) (encode i)

/-- `src`: 0 is PB, 1 is IB. -/
def srcOf (n : Nat) : Src := if n = 1 then .input else .payload

/-- The command of a mnemonic with its operand. -/
def instrOf (m : Mnemonic) (operand : Nat) : Instr :=
  match m with
  | .nop => .nop
  | .reset => .reset
  | .ibClr => .ibClr
  | .ibPush => .ibPush (BitVec.ofNat 8 operand)
  | .obMov => .obMov
  | .crcInit => .crcInit
  | .crcByte => .crcByte (BitVec.ofNat 8 operand)
  | .crcBuf => .crcBuf
  | .rtuEnc => .rtuEnc
  | .rtuDecq => .rtuDecq
  | .rtuDecr => .rtuDecr
  | .tcpDec => .tcpDec
  | .tcpEnc => .tcpEnc
  | .tcpSetp => .tcpSetp (srcOf operand)
  | .tcpSetps => .tcpSetps (srcOf operand)
  | .rxPush => .rxPush
  | .rxPop => .rxPop
  | .rxClr => .rxClr

/-- `window(win) + i`. -/
def winAddr (w : Win) (i : Nat) : Addr := BitVec.ofNat 20 (w.base + i)

/-- `IB.CLR` then `IB.PUSH` of each byte (R79). -/
def loadIb (bs : List Nat) : List Access :=
  command .ibClr :: bs.map (fun b => command (.ibPush (BitVec.ofNat 8 b)))

/-- The accesses of a well-formed statement (R78, R79, log 10). -/
def Line.accesses : Line → List Access
  | .op m operand => [command (instrOf m (operand.getD 0))]
  | .wr r v       => [.write4 (regOffset r) (BitVec.ofNat 32 v)]
  | .rd r         => [.read4 (regOffset r)]
  | .sb w i v     => [.write1 (winAddr w i) (BitVec.ofNat 8 v)]
  | .lb w i       => [.read1 (winAddr w i)]
  | .ibLoad bs    => loadIb bs
  | .pbLoad bs    => loadIb bs ++ [command (.tcpSetp .input)]
  | .crcOf bs     => loadIb bs ++ [command .crcBuf]
  | .cmd w        => [.write4 (regOffset .cmd) (BitVec.ofNat 32 w)]

/-- The assembler refuses an ill-formed statement (R78). -/
def Line.assemble (l : Line) : Option (List Access) := if l.wf then some l.accesses else none

end Sys2Proof.Asm
end

