-- ==== Sys2Proof/Safety.lean ====
section
/-! DEFINITION. What claims are stated in: the well-formed states, the block's own part of a state, what a command may
answer, and sequences of commands. -/

namespace Sys2Proof.Machine

/-- A well-formed state: legal capacities (00_scope.md R6), every length register and the queue within its buffer
(10_state.md R26 to R29, R38), and the three arrays canonical and inside their capacities (R37). -/
structure State.Inv (s : State) : Prop where
  legal : s.params.Legal
  iblen : s.iblen.toNat ≤ s.params.ibufCap
  oblen : s.oblen.toNat ≤ s.params.obufCap
  plen  : s.plen.toNat ≤ s.params.pbufCap
  rxlen : s.rxq.length ≤ s.params.rxqCap
  ibuf  : s.ibuf.wf ∧ s.ibuf.within s.params.ibufCap
  obuf  : s.obuf.wf ∧ s.obuf.within s.params.obufCap
  pbuf  : s.pbuf.wf ∧ s.pbuf.within s.params.pbufCap

/-- The byte address of an access. -/
def Access.address : Access → Nat
  | .read1 a | .read4 a | .write1 a _ | .write4 a _ => a.toNat

/-- How many bytes an access is. -/
def Access.bytes : Access → Nat
  | .read1 _ | .write1 _ _ => 1
  | .read4 _ | .write4 _ _ => 4

/-- The access is a read. -/
def Access.isRead : Access → Bool
  | .read1 _ | .read4 _ => true
  | .write1 _ _ | .write4 _ _ => false

/-- What a bus error returns: 0 in every data bit of a read, nothing for a write (20_memory.md R55). -/
def Access.errorReply : Access → Reply
  | .read1 _ => .byte 0
  | .read4 _ => .word 0
  | .write1 _ _ | .write4 _ _ => .none

/-- Two states hold the same block state: everything but the host's side of the bus. -/
def State.sameBlock (s t : State) : Prop :=
  t = { s with pending := t.pending, resetPin := t.resetPin, reply := t.reply }

/-- One bit of the table's construction: `(c >> 1) XOR 0xA001` if `c[0] = 1`, else `c >> 1` (40_crc.md R100). -/
def crcBit (c : Half) : Half := if c.getLsbD 0 then (c >>> 1) ^^^ 0xA001 else c >>> 1

/-- `crcBit` repeated `n` times (R100, R107). -/
def crcBits : Nat → Half → Half
  | 0, c => c
  | n + 1, c => crcBits n (crcBit c)

/-- The host accesses that are bus errors, cause by cause as R205 of 60_exceptions.md lists them. -/
inductive BusErrorCause (p : Config.Params) : Access → Prop where
  /-- 1: an access to a reserved range. -/
  | reserved (a : Access) (h : (0x100 ≤ a.address ∧ a.address ≤ 0x1FFFF) ∨ 0xA0000 ≤ a.address) : BusErrorCause p a
  /-- 2: an access to an unassigned offset of the register window. -/
  | unassigned (a : Access) (h : a.address ≤ 0xFF) (hr : ∀ r, a.address ≠ (regOffset r).toNat) : BusErrorCause p a
  /-- 3: a 1-byte access in the register window. -/
  | byteInRegisters (a : Access) (h : a.address ≤ 0xFF) (hb : a.bytes = 1) : BusErrorCause p a
  /-- 3: a 4-byte access there at an address that is no multiple of 4. -/
  | misaligned (a : Access) (h : a.address ≤ 0xFF) (hm : a.address % 4 ≠ 0) : BusErrorCause p a
  /-- 4: a 4-byte access in a buffer window. -/
  | wordInWindow (a : Access) (h : 0x20000 ≤ a.address ∧ a.address ≤ 0x9FFFF) (hb : a.bytes = 4) : BusErrorCause p a
  /-- 5: a window access at an offset at or above the buffer's capacity. -/
  | beyondCapacity (a : Access) (w : Win) (h : w.base ≤ a.address ∧ a.address ≤ w.base + 0x1FFFF)
      (hc : winCap p w ≤ a.address - w.base) : BusErrorCause p a
  /-- 6: a write in the OBUF or RXQ window. -/
  | readOnlyWindow (a : Access) (w : Win) (hw : w = .obuf ∨ w = .rxq)
      (h : w.base ≤ a.address ∧ a.address ≤ w.base + 0x1FFFF) (hs : a.isRead = false) : BusErrorCause p a

/-- The codes a command can end with (60_exceptions.md R202). -/
def possibleErr : Instr → List Err
  | .nop | .reset | .ibClr | .crcInit | .crcByte _ | .crcBuf | .rxClr => [.ok]
  | .ibPush _ | .obMov | .rxPush | .rtuEnc | .tcpEnc | .tcpSetp _ | .tcpSetps _ => [.ok, .overflow]
  | .rtuDecq | .rtuDecr => [.ok, .short, .crc, .overflow]
  | .tcpDec => [.ok, .short, .length]
  | .rxPop => [.ok, .noFrame, .overflow]

/-- Commands run one after the other. -/
def execSeq : List Instr → State → Result
  | [], s => .next s
  | i :: is, s =>
    match exec i s with
    | .next t    => execSeq is t
    | .fault f   => .fault f
    | .refused r => .refused r

/-- For each chunk, the host puts it in the input buffer and runs RX.PUSH (43_stream.md R164). -/
def pushChunks : List (List Byte) → State → Result
  | [], s => .next s
  | c :: cs, s =>
    match exec .rxPush (s.storeIbuf c) with
    | .next t    => pushChunks cs t
    | .fault f   => .fault f
    | .refused r => .refused r

/-- The host pops while RXAV is 1, at most `fuel` times, and keeps what each pop leaves in the input buffer; the second
part is the state it ends in (R164). -/
def popFrames : Nat → State → List (List Byte) × State
  | 0, s => ([], s)
  | fuel + 1, s =>
    if s.rxav then
      match exec .rxPop s with
      | .next t =>
        let (fs, u) := popFrames fuel t
        (t.ibSeq :: fs, u)
      | .fault _   => ([], s)
      | .refused _ => ([], s)
    else ([], s)

/-- A whole frame: its length is its length field plus 6 (R164). -/
def wholeFrame (f : List Byte) : Prop := 6 ≤ f.length ∧ f.length = flen f

end Sys2Proof.Machine
end

