-- ==== Sys2Proof/Certificates/Slice0/Obligations.lean ====
section
/-! DEFINITION. The statements about MBCODEC, from the numbered rules of spec/. Each names the rule or file it
formalises; the frame of a command is written as an equation `t = …s with …`, whose listed fields are the ones that may
change. -/

open Sys2Proof Sys2Proof.Machine

/-! ### Encoding (30_encoding.md) -/

/-- Part A: no bit of an encoding is dropped. -/
def Obligations.DecodeOfEncodeIsTheCommand : Prop := ∀ i : Instr, decode (encode i) = .ok i

/-- Part A: a word has one meaning, so its operand fields are the ones the encoding puts there. -/
def Obligations.EncodeOfDecodeIsTheWord : Prop := ∀ (w : Word) (i : Instr), decode w = .ok i → encode i = w

/-- R74: a word is a row's command exactly when it matches the row under its mask; at most one row matches; where none
does, the word is illegal, and running it raises E_ILLEGAL with no other effect. -/
def Obligations.MatchAndMaskDecideTheCommand : Prop :=
  ∀ w : Word,
    (∀ r ∈ opcodeTable, r.matches w = true ↔ ∃ i, decode w = .ok i ∧ i.mnemonic = r.mnemonic) ∧
    (∀ r ∈ opcodeTable, ∀ r' ∈ opcodeTable, r.matches w = true → r'.matches w = true → r = r') ∧
    (∀ r ∈ opcodeTable, r.mask = match r.format with
      | .n => 0xFFFFFFFF | .b => 0xFFFF00FF | .s => 0xFFFFFEFF) ∧
    ((∃ e, decode w = .error e) ↔ ∀ r ∈ opcodeTable, r.matches w = false) ∧
    ∀ s : State, (∀ r ∈ opcodeTable, r.matches w = false) → runCommand w s = .next { s with err := .illegal }

/-- R76's illegal encodings: an opcode outside the map, and a listed opcode with a reserved bit of its format set, raise
E_ILLEGAL and change nothing else. -/
def Obligations.ReservedEncodingsAreIllegal : Prop :=
  ∀ (w : Word) (s : State),
    (let op := (w.extractLsb' 0 8).toNat
     (0x05 ≤ op ∧ op ≤ 0x0F) ∨ (0x13 ≤ op ∧ op ≤ 0x1F) ∨ (0x23 ≤ op ∧ op ≤ 0x2F) ∨
     (0x34 ≤ op ∧ op ≤ 0x3F) ∨ 0x43 ≤ op ∨
     ((op = 0x03 ∨ op = 0x11) ∧ w.extractLsb' 16 16 ≠ 0) ∨
     ((op = 0x32 ∨ op = 0x33) ∧ w.extractLsb' 9 23 ≠ 0) ∨
     (op ∉ [0x03, 0x11, 0x32, 0x33] ∧ w.extractLsb' 8 24 ≠ 0)) →
    runCommand w s = .next { s with err := .illegal }

/-- Words of the spec, one or more of each unit, and the illegal words of 95_test_vectors.md part L2-DEC. -/
def Obligations.SpecWordsDecode : Prop :=
  decode 0x00000000 = .ok .nop ∧ decode 0x00000103 = .ok (.ibPush 0x01) ∧ decode 0x0000D911 = .ok (.crcByte 0xD9) ∧
  decode 0x00000020 = .ok .rtuEnc ∧ decode 0x00000133 = .ok (.tcpSetps .input) ∧
  decode 0x00000032 = .ok (.tcpSetp .payload) ∧ decode 0x00000041 = .ok .rxPop ∧
  [0x000000FF, 0x00000005, 0x00000013, 0x00000043, 0x00000100, 0x00010011, 0x00000232, 0x00020133,
    0x80000000].all (fun w : Word => (decode w).toOption == none) = true

/-! ### A step -/

/-- R23: a 4-byte host write of `w` to 0x00004 runs the command of `w` as one step; a read there returns 0 and has no
effect. -/
def Obligations.WriteToCmdRunsTheDecodedCommand : Prop :=
  ∀ (s : State) (rest : List HostEvent), s.resetPin = false →
    (∀ (w : Word) (i : Instr), decode w = .ok i →
      step { s with pending := .access (.write4 0x00004 w) :: rest } =
        exec i { s with pending := rest, reply := .none }) ∧
    (∀ (w : Word) (e : Illegal), decode w = .error e →
      step { s with pending := .access (.write4 0x00004 w) :: rest } =
        .next { s with pending := rest, reply := .none, err := .illegal }) ∧
    step { s with pending := .access (.read4 0x00004) :: rest } =
      .next { s with pending := rest, reply := .word 0 }

/-- 00_scope.md R5, the model's choice of log 2: with nothing issued the passive block keeps its state. -/
def Obligations.IdleBlockKeepsItsState : Prop := ∀ s : State, step { s with pending := [] } = .next { s with pending := [] }

/-! ### Reset (70_reset_and_hazards.md, 44_control.md) -/

/-- 70_reset_and_hazards.md: whatever the block held, asserting the reset input leaves the values of the reset table,
the capacities unchanged, and STATUS reading 0. The level of the input is the model's field of log 4. -/
def Obligations.ResetInputTakesTheResetState : Prop :=
  ∀ (s : State) (rest : List HostEvent),
    ∃ t, step { s with pending := .assertReset :: rest } = .next t ∧
      t.err = .ok ∧ t.berr = false ∧ t.crc = 0xFFFF ∧ t.iblen = 0 ∧ t.oblen = 0 ∧ t.plen = 0 ∧
      t.tid = 0 ∧ t.pid = 0 ∧ t.tlen = 0 ∧ t.addr = 0 ∧ t.fn = 0 ∧ t.size = 0 ∧
      (∀ i, t.ibuf.byteAt i = 0 ∧ t.obuf.byteAt i = 0 ∧ t.pbuf.byteAt i = 0) ∧ t.rxq = [] ∧
      t.params = s.params ∧ t.statusWord = 0 ∧
      t.pending = rest ∧ t.resetPin = true ∧ t.reply = .none

/-- R171: RESET leaves the block in the state the reset input leaves it in, whatever it held, and its word is
0x00000001. -/
def Obligations.ResetCommandEqualsResetInput : Prop :=
  decode 0x00000001 = .ok .reset ∧
  ∀ (s : State) (rest : List HostEvent), ∃ t u, exec .reset s = .next t ∧
    step { s with pending := .assertReset :: rest } = .next u ∧ t.sameBlock u ∧
    t.err = .ok ∧ t.berr = false ∧ t.rxav = false ∧ t.crc = 0xFFFF ∧ t.iblen = 0 ∧ t.oblen = 0 ∧ t.plen = 0 ∧
    t.tid = 0 ∧ t.pid = 0 ∧ t.tlen = 0 ∧ t.addr = 0 ∧ t.fn = 0 ∧ t.size = 0 ∧
    (∀ i, t.ibuf.byteAt i = 0 ∧ t.obuf.byteAt i = 0 ∧ t.pbuf.byteAt i = 0) ∧ t.rxq = [] ∧
    t.params = s.params ∧ t.pending = s.pending ∧ t.resetPin = s.resetPin ∧ t.reply = s.reply

/-- 70_reset_and_hazards.md and A10 of 93_implementation_defined.md, with the model's named fault of log 4: while the
reset input is asserted there is no access step; released, accesses are served again. -/
def Obligations.NoAccessStepDuringReset : Prop :=
  ∀ (s : State) (a : Access) (rest : List HostEvent),
    step { s with pending := .access a :: rest, resetPin := true } = .fault .accessDuringReset ∧
    (∃ t, step { s with pending := .access a :: rest, resetPin := false } = .next t) ∧
    step { s with pending := .releaseReset :: rest } =
      .next { s with pending := rest, reply := .none, resetPin := false }

/-- The model's choice of log 5 for the capacities and of log 6 for the host's side; every other value is the spec's:
the state after reset is well-formed. -/
def Obligations.ResetStateIsWellFormed : Prop :=
  State.reset.Inv ∧ State.reset.resetPin = false ∧ State.reset.statusWord = 0 ∧ State.reset.crc = 0xFFFF

/-! ### Control and buffer commands (44_control.md) -/

/-- R170, R172, R104, R163: NOP, IB.CLR, CRC.INIT and RX.CLR, with their words. -/
def Obligations.NopAndClearingCommands : Prop :=
  (decode 0x00000000 = .ok .nop ∧ decode 0x00000002 = .ok .ibClr ∧
    decode 0x00000010 = .ok .crcInit ∧ decode 0x00000042 = .ok .rxClr) ∧
  (∀ w : Word, w.extractLsb' 0 8 = 0 → w ≠ 0 → ∃ e, decode w = .error e) ∧
  ∀ s : State,
    exec .nop s = .next { s with err := .ok } ∧
    exec .ibClr s = .next { s with iblen := 0, err := .ok } ∧
    exec .crcInit s = .next { s with crc := 0xFFFF, err := .ok } ∧
    ∃ t, exec .rxClr s = .next t ∧ t = { s with rxq := [], err := .ok } ∧ t.rxav = false

/-- R173: IB.PUSH refuses when IBUF is full and otherwise appends its byte. -/
def Obligations.IbPushAppendsOneByte : Prop :=
  ∀ (s : State) (b : Byte), s.Inv →
    decode (0x00000003 ||| (b.setWidth 32 <<< 8)) = .ok (.ibPush b) ∧
    (s.iblen.toNat = s.params.ibufCap → exec (.ibPush b) s = .next { s with err := .overflow }) ∧
    (s.iblen.toNat ≠ s.params.ibufCap → ∃ t, exec (.ibPush b) s = .next t ∧ t.err = .ok ∧
      t.iblen.toNat = s.iblen.toNat + 1 ∧
      (∀ j, t.ibuf.byteAt j = if j = s.iblen.toNat then b else s.ibuf.byteAt j) ∧
      t = { s with err := t.err, ibuf := t.ibuf, iblen := t.iblen })

/-- R174: OB.MOV copies the output buffer into the input buffer, or refuses what does not fit. -/
def Obligations.ObMovCopiesTheOutput : Prop :=
  decode 0x00000004 = .ok .obMov ∧
  ∀ s : State,
    (s.params.ibufCap < s.oblen.toNat → exec .obMov s = .next { s with err := .overflow }) ∧
    (s.oblen.toNat ≤ s.params.ibufCap → ∃ t, exec .obMov s = .next t ∧ t.err = .ok ∧ t.iblen = s.oblen ∧
      (∀ j, t.ibuf.byteAt j = if j < s.oblen.toNat then s.obuf.byteAt j else s.ibuf.byteAt j) ∧
      t = { s with err := t.err, ibuf := t.ibuf, iblen := t.iblen })

/-! ### CRC (40_crc.md) -/

/-- R105, with the step of R101 and the table of R100: CRC.BYTE replaces the accumulator `c` by
`(c >> 8) XOR T[(c XOR b) & 0xFF]`, sets E_OK and changes nothing else; a zero accumulator stays zero under a zero byte.
What a sequence of them leaves is CrcBytesAccumulateTheChecksum; how the entries of T are built, which the spec marks as
general knowledge (log 13), is TableStepIsEightBitSteps. -/
def Obligations.CrcByteFoldsOneByte : Prop :=
  crcTable.length = 256 ∧
  (∀ b : Byte, decode (0x00000011 ||| (b.setWidth 32 <<< 8)) = .ok (.crcByte b)) ∧
  (∀ (s : State) (b : Byte), ∃ entry : Half,
    crcTable[((s.crc ^^^ b.setWidth 16) &&& 0xFF).toNat]? = some entry ∧
    exec (.crcByte b) s = .next { s with crc := (s.crc >>> 8) ^^^ entry, err := .ok }) ∧
  ∀ s : State,
    exec (.crcByte 0x00) { s with crc := 0x0000 } = .next { s with crc := 0x0000, err := .ok } ∧
    exec (.crcByte 0xFF) { s with crc := 0xFFFF } = .next { s with crc := 0x00FF, err := .ok }

/-- 40_crc.md, a corner case the spec marks as derived: CRC.INIT and then one CRC.BYTE for each byte of a sequence
leaves its checksum; with the sequence's own CRC folded after it, low byte first, it leaves 0. -/
def Obligations.CrcBytesAccumulateTheChecksum : Prop :=
  ∀ (s : State) (l : List Byte),
    execSeq (.crcInit :: l.map Instr.crcByte) s = .next { s with crc := checksum l, err := .ok } ∧
    execSeq (.crcInit :: (l ++ [lo8 (checksum l), hi8 (checksum l)]).map Instr.crcByte) s =
      .next { s with crc := 0, err := .ok }

/-- R106: CRC.BUF leaves the checksum of IBUF[0..IBLEN), whatever CRC held; 0xFFFF when IBLEN is 0; 0 when the bytes end
with their own CRC, low byte first. -/
def Obligations.CrcBufChecksumsTheInput : Prop :=
  decode 0x00000012 = .ok .crcBuf ∧
  ∀ s : State,
    exec .crcBuf s = .next { s with
      crc := ((List.range s.iblen.toNat).map s.ibuf.byteAt).foldl crcStep 0xFFFF, err := .ok } ∧
    (s.iblen = 0 → exec .crcBuf s = .next { s with crc := 0xFFFF, err := .ok }) ∧
    ∀ f : List Byte, s.ibSeq = f ++ [lo8 (checksum f), hi8 (checksum f)] →
      exec .crcBuf s = .next { s with crc := 0, err := .ok }

/-- 40_crc.md, passages the spec marks as general knowledge: every table entry is eight one-bit steps from its index,
and the table step is eight one-bit steps from `c XOR b`. -/
def Obligations.TableStepIsEightBitSteps : Prop :=
  (∀ i : Byte, crcEntry i = crcBits 8 (i.setWidth 16)) ∧
  ∀ (c : Half) (b : Byte), crcStep c b = crcBits 8 (c ^^^ b.setWidth 16)

/-! ### RTU codec (41_rtu.md) -/

/-- R120: RTU.ENC writes address, function, payload and their CRC, low byte first, or refuses a frame that does not
fit. -/
def Obligations.RtuEncWritesTheFrame : Prop :=
  decode 0x00000020 = .ok .rtuEnc ∧
  ∀ s : State, s.params.Legal →
    (s.params.obufCap < s.plen.toNat + 4 → exec .rtuEnc s = .next { s with err := .overflow }) ∧
    (s.plen.toNat + 4 ≤ s.params.obufCap → ∃ t, exec .rtuEnc s = .next t ∧ t.err = .ok ∧
      t.oblen.toNat = s.plen.toNat + 4 ∧
      (let m := [s.addr, s.fn] ++ s.pbSeq
       ∀ j, t.obuf.byteAt j =
        if j < s.plen.toNat + 4 then byteOf (m ++ [lo8 (checksum m), hi8 (checksum m)]) j
        else s.obuf.byteAt j) ∧
      t = { s with err := t.err, obuf := t.obuf, oblen := t.oblen })

/-- R121: RTU.DECQ checks length, CRC and room in that order, and then takes address, function and payload. -/
def Obligations.RtuDecqDecodesRequestForm : Prop :=
  decode 0x00000021 = .ok .rtuDecq ∧
  ∀ s : State,
    let n := s.iblen.toNat
    let b := s.ibSeq
    let bad := checksum (b.take (n - 2)) ≠ be16 (byteOf b (n - 1)) (byteOf b (n - 2))
    (n < 5 → exec .rtuDecq s = .next { s with err := .short }) ∧
    (5 ≤ n → bad → exec .rtuDecq s = .next { s with err := .crc }) ∧
    (5 ≤ n → ¬bad → s.params.pbufCap < n - 4 → exec .rtuDecq s = .next { s with err := .overflow }) ∧
    (5 ≤ n → ¬bad → n - 4 ≤ s.params.pbufCap → ∃ t, exec .rtuDecq s = .next t ∧ t.err = .ok ∧
      t.addr = s.ibuf.byteAt 0 ∧ t.fn = s.ibuf.byteAt 1 ∧ t.plen.toNat = n - 4 ∧
      (∀ j, t.pbuf.byteAt j = if j < n - 4 then s.ibuf.byteAt (j + 2) else s.pbuf.byteAt j) ∧
      t = { s with err := t.err, addr := t.addr, fn := t.fn, pbuf := t.pbuf, plen := t.plen })

/-- R122: RTU.DECR makes the same checks and also takes the size byte, unchecked. -/
def Obligations.RtuDecrDecodesResponseForm : Prop :=
  decode 0x00000022 = .ok .rtuDecr ∧
  ∀ s : State,
    let n := s.iblen.toNat
    let b := s.ibSeq
    let bad := checksum (b.take (n - 2)) ≠ be16 (byteOf b (n - 1)) (byteOf b (n - 2))
    (n < 5 → exec .rtuDecr s = .next { s with err := .short }) ∧
    (5 ≤ n → bad → exec .rtuDecr s = .next { s with err := .crc }) ∧
    (5 ≤ n → ¬bad → s.params.pbufCap < n - 5 → exec .rtuDecr s = .next { s with err := .overflow }) ∧
    (5 ≤ n → ¬bad → n - 5 ≤ s.params.pbufCap → ∃ t, exec .rtuDecr s = .next t ∧ t.err = .ok ∧
      t.addr = s.ibuf.byteAt 0 ∧ t.fn = s.ibuf.byteAt 1 ∧ t.size = s.ibuf.byteAt 2 ∧ t.plen.toNat = n - 5 ∧
      (∀ j, t.pbuf.byteAt j = if j < n - 5 then s.ibuf.byteAt (j + 3) else s.pbuf.byteAt j) ∧
      t = { s with
        err := t.err, addr := t.addr, fn := t.fn, size := t.size, pbuf := t.pbuf, plen := t.plen })

/-- 41_rtu.md, round trip, a rule the spec marks as derived: RTU.ENC, OB.MOV, RTU.DECQ gives the frame back when it has
a payload byte and E_SHORT when it has none; with RTU.DECR the first payload byte becomes SIZE. -/
def Obligations.RtuRoundTrip : Prop :=
  ∀ s : State, s.Inv →
    s.plen.toNat + 4 ≤ s.params.obufCap → s.plen.toNat + 4 ≤ s.params.ibufCap →
    (1 ≤ s.plen.toNat → ∃ t, execSeq [.rtuEnc, .obMov, .rtuDecq] s = .next t ∧ t.err = .ok ∧
      t.addr = s.addr ∧ t.fn = s.fn ∧ t.plen = s.plen ∧
      ∀ j < s.plen.toNat, t.pbuf.byteAt j = s.pbuf.byteAt j) ∧
    (1 ≤ s.plen.toNat → ∃ t, execSeq [.rtuEnc, .obMov, .rtuDecr] s = .next t ∧ t.err = .ok ∧
      t.addr = s.addr ∧ t.fn = s.fn ∧ t.size = s.pbuf.byteAt 0 ∧ t.plen.toNat + 1 = s.plen.toNat ∧
      ∀ j < s.plen.toNat - 1, t.pbuf.byteAt j = s.pbuf.byteAt (j + 1)) ∧
    (s.plen.toNat = 0 → ∃ t, execSeq [.rtuEnc, .obMov, .rtuDecq] s = .next t ∧ t.err = .short)

/-- 41_rtu.md, corruption, a rule the spec rests on general knowledge: change any one byte of a frame whose CRC is
right, CRC bytes included, and both decoders answer E_CRC and change nothing else. -/
def Obligations.OneChangedByteIsACrcError : Prop :=
  ∀ (s : State) (k : Nat) (v : Byte), 5 ≤ s.iblen.toNat → k < s.iblen.toNat → crcGood s.ibSeq = true →
    v ≠ s.ibuf.byteAt k →
    let s' := { s with ibuf := s.ibuf.setByte k v }
    exec .rtuDecq s' = .next { s' with err := .crc } ∧ exec .rtuDecr s' = .next { s' with err := .crc }

/-! ### TCP codec (42_tcp.md) -/

/-- R140: TCP.DEC checks the minimum and then the length field, and then takes header, address, function and payload;
protocolId is stored as received. -/
def Obligations.TcpDecDecodesTheFrame : Prop :=
  decode 0x00000030 = .ok .tcpDec ∧
  ∀ s : State,
    let n := s.iblen.toNat
    let l := be16 (s.ibuf.byteAt 4) (s.ibuf.byteAt 5)
    (n < 8 → exec .tcpDec s = .next { s with err := .short }) ∧
    (8 ≤ n → n ≠ l.toNat + 6 → exec .tcpDec s = .next { s with err := .length }) ∧
    (8 ≤ n → n = l.toNat + 6 → ∃ t, exec .tcpDec s = .next t ∧ t.err = .ok ∧
      t.tid = be16 (s.ibuf.byteAt 0) (s.ibuf.byteAt 1) ∧ t.pid = be16 (s.ibuf.byteAt 2) (s.ibuf.byteAt 3) ∧
      t.tlen = l ∧ t.addr = s.ibuf.byteAt 6 ∧ t.fn = s.ibuf.byteAt 7 ∧ t.plen.toNat = l.toNat - 2 ∧
      (∀ j, t.pbuf.byteAt j = if j < l.toNat - 2 then s.ibuf.byteAt (j + 8) else s.pbuf.byteAt j) ∧
      t = { s with
        err := t.err, tid := t.tid, pid := t.pid, tlen := t.tlen, addr := t.addr, fn := t.fn,
        pbuf := t.pbuf, plen := t.plen })

/-- R141: TCP.ENC computes the length field from PLEN, writes the big-endian header, address, function and payload, and
leaves the length in TLEN. -/
def Obligations.TcpEncEncodesTheFrame : Prop :=
  decode 0x00000031 = .ok .tcpEnc ∧
  ∀ s : State,
    (65533 < s.plen.toNat ∨ s.params.obufCap < s.plen.toNat + 8 →
      exec .tcpEnc s = .next { s with err := .overflow }) ∧
    (s.plen.toNat ≤ 65533 → s.plen.toNat + 8 ≤ s.params.obufCap → ∃ t, exec .tcpEnc s = .next t ∧ t.err = .ok ∧
      t.oblen.toNat = s.plen.toNat + 8 ∧ t.tlen.toNat = s.plen.toNat + 2 ∧
      (∀ j, t.obuf.byteAt j =
        if j < 8 then byteOf [hi8 s.tid, lo8 s.tid, hi8 s.pid, lo8 s.pid, hi8 t.tlen, lo8 t.tlen, s.addr, s.fn] j
        else if j < s.plen.toNat + 8 then s.pbuf.byteAt (j - 8) else s.obuf.byteAt j) ∧
      t = { s with err := t.err, obuf := t.obuf, oblen := t.oblen, tlen := t.tlen })

/-- R142: TCP.SETP replaces the payload by the selected data. -/
def Obligations.TcpSetpReplacesThePayload : Prop :=
  decode 0x00000032 = .ok (.tcpSetp .payload) ∧ decode 0x00000132 = .ok (.tcpSetp .input) ∧
  ∀ (s : State) (src : Src), s.Inv →
    let len := match src with | .payload => s.plen.toNat | .input => s.iblen.toNat
    let data := match src with | .payload => s.pbuf | .input => s.ibuf
    (s.params.pbufCap < len → exec (.tcpSetp src) s = .next { s with err := .overflow }) ∧
    (src = .payload → exec (.tcpSetp src) s = .next { s with err := .ok }) ∧
    (len ≤ s.params.pbufCap → ∃ t, exec (.tcpSetp src) s = .next t ∧ t.err = .ok ∧ t.plen.toNat = len ∧
      (∀ j, t.pbuf.byteAt j = if j < len then data.byteAt j else s.pbuf.byteAt j) ∧
      t = { s with err := t.err, pbuf := t.pbuf, plen := t.plen })

/-- R143: TCP.SETPS puts a one-byte count in front of the selected data, or refuses more than 255 bytes. -/
def Obligations.TcpSetpsPrependsTheCount : Prop :=
  decode 0x00000033 = .ok (.tcpSetps .payload) ∧ decode 0x00000133 = .ok (.tcpSetps .input) ∧
  ∀ (s : State) (src : Src),
    let len := match src with | .payload => s.plen.toNat | .input => s.iblen.toNat
    let data := match src with | .payload => s.pbuf | .input => s.ibuf
    (255 < len ∨ s.params.pbufCap < len + 1 → exec (.tcpSetps src) s = .next { s with err := .overflow }) ∧
    (len ≤ 255 → len + 1 ≤ s.params.pbufCap → ∃ t, exec (.tcpSetps src) s = .next t ∧ t.err = .ok ∧
      t.plen.toNat = len + 1 ∧ (t.pbuf.byteAt 0).toNat = len ∧
      (∀ j, t.pbuf.byteAt (j + 1) = if j < len then data.byteAt j else s.pbuf.byteAt (j + 1)) ∧
      t = { s with err := t.err, pbuf := t.pbuf, plen := t.plen })

/-- 42_tcp.md, round trip, a rule the spec marks as derived: a frame that TCP.DEC accepts is reproduced byte for byte by
TCP.ENC and OB.MOV. -/
def Obligations.TcpRoundTrip : Prop :=
  ∀ s : State, s.params.Legal →
    (∀ u, exec .tcpDec s = .next u → u.err = .ok →
      ∃ t, execSeq [.tcpDec, .tcpEnc, .obMov] s = .next t ∧ t.err = .ok ∧ t.iblen = s.iblen ∧
        ∀ j < s.iblen.toNat, t.ibuf.byteAt j = s.ibuf.byteAt j) ∧
    (8 ≤ s.iblen.toNat → s.iblen.toNat ≠ flen s.ibSeq → exec .tcpDec s = .next { s with err := .length })

/-! ### Stream (43_stream.md) -/

/-- R161: RX.PUSH appends all of the input buffer to the stream, or none of it. -/
def Obligations.RxPushAppendsTheInput : Prop :=
  decode 0x00000040 = .ok .rxPush ∧
  ∀ s : State,
    (s.params.rxqCap < s.rxq.length + s.iblen.toNat → exec .rxPush s = .next { s with err := .overflow }) ∧
    (s.rxq.length + s.iblen.toNat ≤ s.params.rxqCap → ∃ t, exec .rxPush s = .next t ∧ t.err = .ok ∧
      t.rxq.length = s.rxq.length + s.iblen.toNat ∧
      (∀ j, byteOf t.rxq j =
        if j < s.rxq.length then byteOf s.rxq j
        else if j < s.rxq.length + s.iblen.toNat then s.ibuf.byteAt (j - s.rxq.length) else 0) ∧
      t = { s with err := t.err, rxq := t.rxq })

/-- R162: RX.POP moves the first `be16(RXQ[4], RXQ[5]) + 6` bytes of the stream to the input buffer when they are all
there, and otherwise answers E_NOFRAME. -/
def Obligations.RxPopTakesOneFrame : Prop :=
  decode 0x00000041 = .ok .rxPop ∧
  ∀ s : State,
    let k := (be16 (byteOf s.rxq 4) (byteOf s.rxq 5)).toNat + 6
    (s.rxq.length < 6 ∨ s.rxq.length < k → exec .rxPop s = .next { s with err := .noFrame }) ∧
    (6 ≤ s.rxq.length → k ≤ s.rxq.length → s.params.ibufCap < k →
      exec .rxPop s = .next { s with err := .overflow }) ∧
    (6 ≤ s.rxq.length → k ≤ s.rxq.length → k ≤ s.params.ibufCap → ∃ t, exec .rxPop s = .next t ∧ t.err = .ok ∧
      t.iblen.toNat = k ∧
      (∀ j, t.ibuf.byteAt j = if j < k then byteOf s.rxq j else s.ibuf.byteAt j) ∧
      t.rxq.length + k = s.rxq.length ∧ (∀ j, byteOf t.rxq j = byteOf s.rxq (j + k)) ∧
      t = { s with err := t.err, ibuf := t.ibuf, iblen := t.iblen, rxq := t.rxq })

/-- 43_stream.md, stream laws, a rule the spec marks as derived: whole frames followed by a rest that holds none, pushed
in any split, are popped in order, and the rest stays; a frame error leaves the stream alone. -/
def Obligations.StreamIsCutIntoItsFrames : Prop :=
  (∀ (s : State) (chunks frames : List (List Byte)) (g : List Byte), s.params.Legal → s.rxq = [] →
    (∀ f ∈ frames, wholeFrame f) → avail g = false → chunks.flatten = frames.flatten ++ g →
    (∀ c ∈ chunks, c.length ≤ s.params.ibufCap) → (frames.flatten ++ g).length ≤ s.params.rxqCap →
    ∃ t, pushChunks chunks s = .next t ∧ t.rxq = frames.flatten ++ g ∧
      ∀ fuel, frames.length ≤ fuel → (popFrames fuel t).1 = frames ∧ (popFrames fuel t).2.rxq = g) ∧
  ∀ s t : State, exec .tcpDec s = .next t → t.rxq = s.rxq

/-! ### Rules over all commands (60_exceptions.md, 10_state.md) -/

/-- 60_exceptions.md, the table of possible codes, a rule the spec marks as derived: every command completes, with one of
its codes. -/
def Obligations.EveryCommandEndsWithOneOfItsCodes : Prop :=
  ∀ (i : Instr) (s : State), ∃ t, exec i s = .next t ∧ t.err ∈ possibleErr i

/-- R204: a word written to CMD that ends with a code other than E_OK changes STATUS.ERR and nothing else. -/
def Obligations.FailedCommandChangesOnlyErr : Prop :=
  ∀ (w : Word) (s t : State), runCommand w s = .next t → t.err ≠ .ok → t = { s with err := t.err }

/-- 10_state.md, who writes each register and buffer (the operand lists of R24 to R38): a command other than those
listed leaves it alone. RESET writes them all. -/
def Obligations.OnlyListedCommandsWriteEachRegister : Prop :=
  ∀ (i : Instr) (s t : State), exec i s = .next t → i ≠ .reset →
    t.berr = s.berr ∧
    (i.mnemonic ∉ [.crcInit, .crcByte, .crcBuf] → t.crc = s.crc) ∧
    (i.mnemonic ∉ [.ibClr, .ibPush, .obMov, .rxPop] → t.iblen = s.iblen) ∧
    (i.mnemonic ∉ [.ibPush, .obMov, .rxPop] → t.ibuf = s.ibuf) ∧
    (i.mnemonic ∉ [.rtuEnc, .tcpEnc] → t.oblen = s.oblen ∧ t.obuf = s.obuf) ∧
    (i.mnemonic ∉ [.rtuDecq, .rtuDecr, .tcpDec, .tcpSetp, .tcpSetps] → t.plen = s.plen ∧ t.pbuf = s.pbuf) ∧
    (i.mnemonic ∉ [.rxPush, .rxPop, .rxClr] → t.rxq = s.rxq) ∧
    (i.mnemonic ≠ .tcpDec → t.tid = s.tid ∧ t.pid = s.pid) ∧
    (i.mnemonic ∉ [.tcpDec, .tcpEnc] → t.tlen = s.tlen) ∧
    (i.mnemonic ∉ [.rtuDecq, .rtuDecr, .tcpDec] → t.addr = s.addr ∧ t.fn = s.fn) ∧
    (i.mnemonic ≠ .rtuDecr → t.size = s.size)

/-- 10_state.md (CRC) and 41_rtu.md: no command but the three of the CRC unit reads CRC, so the others do the same
whatever it holds. RESET overwrites it. -/
def Obligations.OnlyCrcCommandsReadCrc : Prop :=
  ∀ (i : Instr) (s : State) (c : Half), i.mnemonic ∉ [.crcInit, .crcByte, .crcBuf, .reset] →
    ∃ t, exec i s = .next t ∧ exec i { s with crc := c } = .next { t with crc := c }

/-- 30_encoding.md (the function byte): no command's behaviour depends on FN; only FN itself and the byte an encoder
copies, with the CRC over it, differ. -/
def Obligations.FunctionByteIsNeverInterpreted : Prop :=
  ∀ (i : Instr) (s : State) (f : Byte), ∃ t u,
    exec i s = .next t ∧ exec i { s with fn := f } = .next u ∧ u = { t with fn := u.fn, obuf := u.obuf } ∧
    (u.fn = t.fn ∨ (t.fn = s.fn ∧ u.fn = f)) ∧
    ∀ j, u.obuf.byteAt j ≠ t.obuf.byteAt j →
      (i = .tcpEnc ∧ j = 7) ∨
      (i = .rtuEnc ∧ (j = 1 ∨ j = s.plen.toNat + 2 ∨ j = s.plen.toNat + 3))

/-! ### Invariants of a step -/

/-- R6, R26 to R29, R37, R38: every step from a well-formed state, whatever the host does, ends in one. -/
def Obligations.StepKeepsWellFormedStates : Prop :=
  ∀ s t : State, s.Inv → step s = .next t → t.Inv

/-- 10_state.md R36 and R22: the capacities and ID never change. -/
def Obligations.CapacitiesAndIdNeverChange : Prop :=
  ∀ s t : State, step s = .next t → t.params = s.params ∧ readReg t .id = 0x4D420100 ∧
    readReg t .ibcap = readReg s .ibcap ∧ readReg t .obcap = readReg s .obcap ∧
    readReg t .pbcap = readReg s .pbcap ∧ readReg t .rxcap = readReg s .rxcap

/-- 60_exceptions.md (BERR is sticky): BERR goes from 1 to 0 only by a STATUS write with data bit 16 set, by RESET or by
the reset input. -/
def Obligations.BerrIsSticky : Prop :=
  ∀ s t : State, s.berr = true → step s = .next t → t.berr = false →
    (∃ rest, s.pending = .assertReset :: rest) ∨
    (∃ rest, s.pending = .access (.write4 0x00004 0x00000001) :: rest) ∨
    ∃ d rest, s.pending = .access (.write4 0x00008 d) :: rest ∧ d.getLsbD 16 = true

/-! ### Host accesses (20_memory.md, 10_state.md) -/

/-- R205 and R55: an access with one of the listed causes sets BERR, returns 0 if it is a read, and has no other effect;
an access with none of them is no bus error. -/
def Obligations.BusErrorsAreExactlyTheListedCauses : Prop :=
  ∀ (s : State) (a : Access) (rest : List HostEvent), s.resetPin = false →
    let serving := step { s with pending := .access a :: rest }
    (BusErrorCause s.params a →
      serving = .next { s with pending := rest, reply := a.errorReply, berr := true }) ∧
    (¬BusErrorCause s.params a → s.berr = false → ∃ t, serving = .next t ∧ t.berr = false)

/-- 20_memory.md (side effects): a read changes no state of the block, a bus error's BERR apart, and reading again
returns the same. -/
def Obligations.ReadsChangeNothing : Prop :=
  ∀ (s : State) (a : Access) (rest : List HostEvent), s.resetPin = false → a.isRead = true →
    ∃ t, step { s with pending := .access a :: rest } = .next t ∧
      t = { s with pending := rest, reply := t.reply, berr := t.berr } ∧
      (¬BusErrorCause s.params a → t.berr = s.berr) ∧
      ∃ u, step { t with pending := .access a :: rest } = .next u ∧ u.reply = t.reply

/-- R22, R25 to R36 and 10_state.md's write-only CMD: what a 4-byte read returns at the offset of each register but
STATUS: the register's value, with 0 above its implemented bits. -/
def Obligations.RegisterReads : Prop :=
  ∀ (s : State) (rest : List HostEvent), s.resetPin = false → s.Inv →
    let reads := fun (offset : Addr) (v : Nat) =>
      step { s with pending := .access (.read4 offset) :: rest } =
        .next { s with pending := rest, reply := .word (BitVec.ofNat 32 v) }
    reads 0x00 0x4D420100 ∧ reads 0x04 0 ∧ reads 0x0C s.crc.toNat ∧ reads 0x10 s.iblen.toNat ∧
    reads 0x14 s.oblen.toNat ∧ reads 0x18 s.plen.toNat ∧ reads 0x1C s.rxq.length ∧
    reads 0x20 s.tid.toNat ∧ reads 0x24 s.pid.toNat ∧ reads 0x28 s.tlen.toNat ∧
    reads 0x2C s.addr.toNat ∧ reads 0x30 s.fn.toNat ∧ reads 0x34 s.size.toNat ∧
    reads 0x40 s.params.ibufCap ∧ reads 0x44 s.params.obufCap ∧
    reads 0x48 s.params.pbufCap ∧ reads 0x4C s.params.rxqCap

/-- R25, R26, R28, R30 to R35, R42: what a 4-byte write of `d` does at the offset of each register but CMD and STATUS:
the implemented bits are stored, a length above the capacity is ignored, and a read-only register is left alone. -/
def Obligations.RegisterWrites : Prop :=
  ∀ (s : State) (rest : List HostEvent) (d : Word), s.resetPin = false → s.params.Legal →
    let s0 := { s with pending := rest, reply := .none }
    let writing := fun offset : Addr => step { s with pending := .access (.write4 offset d) :: rest }
    writing 0x0C = .next { s0 with crc := d.extractLsb' 0 16 } ∧
    (d.toNat ≤ s.params.ibufCap → ∃ t, writing 0x10 = .next t ∧ t.iblen.toNat = d.toNat ∧ t = { s0 with iblen := t.iblen }) ∧
    (s.params.ibufCap < d.toNat → writing 0x10 = .next s0) ∧
    (d.toNat ≤ s.params.pbufCap → ∃ t, writing 0x18 = .next t ∧ t.plen.toNat = d.toNat ∧ t = { s0 with plen := t.plen }) ∧
    (s.params.pbufCap < d.toNat → writing 0x18 = .next s0) ∧
    writing 0x20 = .next { s0 with tid := d.extractLsb' 0 16 } ∧
    writing 0x24 = .next { s0 with pid := d.extractLsb' 0 16 } ∧
    writing 0x28 = .next { s0 with tlen := d.extractLsb' 0 16 } ∧
    writing 0x2C = .next { s0 with addr := d.extractLsb' 0 8 } ∧
    writing 0x30 = .next { s0 with fn := d.extractLsb' 0 8 } ∧
    writing 0x34 = .next { s0 with size := d.extractLsb' 0 8 } ∧
    ∀ ro ∈ ([0x00, 0x14, 0x1C, 0x40, 0x44, 0x48, 0x4C] : List Addr), writing ro = .next s0

/-- R24, R40, R200: the fields of STATUS as read, ERR with the number R200 gives each code, and a write, which clears
BERR where data bit 16 is 1 and changes nothing else. -/
def Obligations.StatusReadsAndWrites : Prop :=
  ∀ (s : State) (rest : List HostEvent), s.resetPin = false →
    (∃ v : Word, step { s with pending := .access (.read4 0x00008) :: rest } =
        .next { s with pending := rest, reply := .word v } ∧
      (v.extractLsb' 0 4).toNat = (match s.err with
        | .ok => 0 | .short => 1 | .crc => 2 | .length => 3 | .overflow => 4 | .noFrame => 5 | .illegal => 6) ∧
      (v.getLsbD 4 = true ↔ s.err = .short ∨ s.err = .crc ∨ s.err = .length) ∧
      v.extractLsb' 5 3 = 0 ∧
      (v.getLsbD 8 = true ↔
        6 ≤ s.rxq.length ∧ (be16 (byteOf s.rxq 4) (byteOf s.rxq 5)).toNat + 6 ≤ s.rxq.length) ∧
      v.extractLsb' 9 7 = 0 ∧ v.getLsbD 16 = s.berr ∧ v.extractLsb' 17 15 = 0) ∧
    ∀ d : Word, step { s with pending := .access (.write4 0x00008 d) :: rest } =
      .next { s with
        pending := rest, reply := .none, berr := if d.getLsbD 16 = true then false else s.berr }

/-- R52: window reads and writes of one byte, below the buffer's capacity. A write changes its byte and no length
register. -/
def Obligations.WindowsReadAndWriteBytes : Prop :=
  ∀ (s : State) (rest : List HostEvent) (i : Nat) (a : Addr), s.resetPin = false → s.params.Legal →
    let reading := step { s with pending := .access (.read1 a) :: rest }
    let answer := fun v : Byte => Host.Outcome.next (φ := Fault) (ρ := Refusal)
      { s with pending := rest, reply := .byte v }
    let writing := fun v : Byte => step { s with pending := .access (.write1 a v) :: rest }
    (a.toNat = 0x20000 + i → i < s.params.ibufCap → reading = answer (s.ibuf.byteAt i) ∧
      ∀ v, ∃ t, writing v = .next t ∧
        (∀ j, t.ibuf.byteAt j = if j = i then v else s.ibuf.byteAt j) ∧
        t = { s with pending := rest, reply := .none, ibuf := t.ibuf }) ∧
    (a.toNat = 0x40000 + i → i < s.params.obufCap → reading = answer (s.obuf.byteAt i)) ∧
    (a.toNat = 0x60000 + i → i < s.params.pbufCap → reading = answer (s.pbuf.byteAt i) ∧
      ∀ v, ∃ t, writing v = .next t ∧
        (∀ j, t.pbuf.byteAt j = if j = i then v else s.pbuf.byteAt j) ∧
        t = { s with pending := rest, reply := .none, pbuf := t.pbuf }) ∧
    (a.toNat = 0x80000 + i → i < s.params.rxqCap →
      reading = answer (if i < s.rxq.length then byteOf s.rxq i else 0))

/-- 20_memory.md (ordering): accesses are applied one at a time in the order they were issued, so what is issued later
changes nothing in how the earlier ones are served. -/
def Obligations.EarlierEventsIgnoreLaterOnes : Prop :=
  ∀ (s t : State) (first later : List HostEvent),
    Host.Core.run core first.length { s with pending := first } = .next t →
    t.pending = [] ∧
    Host.Core.run core first.length { s with pending := first ++ later } = .next { t with pending := later }

/-! ### Assembler (30_encoding.md) -/

/-- R78: the assembler refuses an `imm` outside 0 to 255 and an `s` other than 0 and 1, and assembles the others to one
write of the word to CMD. -/
def Obligations.AssemblerChecksOperands : Prop :=
  ∀ n : Nat,
    (n ≤ 255 → (Asm.Line.op .ibPush (some n)).assemble = some [.write4 0x00004 (BitVec.ofNat 32 (3 + 256 * n))] ∧
      (Asm.Line.op .crcByte (some n)).assemble = some [.write4 0x00004 (BitVec.ofNat 32 (0x11 + 256 * n))]) ∧
    (255 < n → (Asm.Line.op .ibPush (some n)).assemble = none ∧ (Asm.Line.op .crcByte (some n)).assemble = none) ∧
    (n ≤ 1 → (Asm.Line.op .tcpSetp (some n)).assemble = some [.write4 0x00004 (BitVec.ofNat 32 (0x32 + 256 * n))] ∧
      (Asm.Line.op .tcpSetps (some n)).assemble = some [.write4 0x00004 (BitVec.ofNat 32 (0x33 + 256 * n))]) ∧
    (1 < n → (Asm.Line.op .tcpSetp (some n)).assemble = none ∧ (Asm.Line.op .tcpSetps (some n)).assemble = none)

/-- 30_encoding.md (pseudo-instructions): the accesses of IB.LOAD leave its bytes in the input buffer; PB.LOAD also
leaves them in the payload; CRC.OF also leaves their checksum in CRC. -/
def Obligations.LoadsLeaveTheirBytes : Prop :=
  ∀ (s : State) (bs : List Byte), s.Inv → s.resetPin = false → bs.length ≤ s.params.ibufCap →
    let running := fun l : Asm.Line =>
      Host.Core.run core l.accesses.length { s with pending := l.accesses.map .access }
    let nums := bs.map BitVec.toNat
    (∃ t : State, running (.ibLoad nums) = .next t ∧ t.err = .ok ∧ t.ibSeq = bs ∧ t.pending = []) ∧
    (bs.length ≤ s.params.pbufCap →
      ∃ t : State, running (.pbLoad nums) = .next t ∧ t.err = .ok ∧ t.ibSeq = bs ∧ t.pbSeq = bs) ∧
    (∃ t : State, running (.crcOf nums) = .next t ∧ t.err = .ok ∧ t.ibSeq = bs ∧ t.crc = checksum bs)
end

