-- ==== Sys2Proof/Laws/Memory.lean ====
section
/-! SUPPORT. The buffers as arrays: what a byte reads as after a write or a store, that every operation keeps the
canonical form and the bound, and that two canonical buffers with the same bytes are equal. -/

namespace Sys2Proof.Machine

/-! ### Reading a byte -/

theorem Memory.byteAt_cons (c : Host.Cell) (m : Memory) (i : Nat) :
    Memory.byteAt (c :: m) i = if c.1 = i then c.2 else Memory.byteAt m i := rfl

theorem Memory.byteAt_absent {m : Memory} {i : Nat} (h : ∀ c ∈ m, c.1 ≠ i) : m.byteAt i = 0 := by
  induction m with
  | nil => rfl
  | cons c m ih =>
    rw [byteAt_cons, if_neg (h c (by simp))]
    exact ih fun d hd => h d (by simp [hd])

theorem Memory.byteAt_append_right {m m' : Memory} {i : Nat} (h : ∀ c ∈ m, c.1 ≠ i) :
    Memory.byteAt (m ++ m') i = m'.byteAt i := by
  induction m with
  | nil => rfl
  | cons c m ih =>
    rw [List.cons_append, byteAt_cons, if_neg (h c (by simp))]
    exact ih fun d hd => h d (by simp [hd])

theorem Memory.byteAt_append_left {m m' : Memory} {i : Nat} (h : ∀ c ∈ m', c.1 ≠ i) :
    Memory.byteAt (m ++ m') i = m.byteAt i := by
  induction m with
  | nil => exact byteAt_absent h
  | cons c m ih => rw [List.cons_append, byteAt_cons, byteAt_cons, ih]

theorem Memory.byteAt_filter (p : Nat → Bool) (m : Memory) (i : Nat) :
    Memory.byteAt (m.filter fun c => p c.1) i = if p i then m.byteAt i else 0 := by
  induction m with
  | nil => simp [byteAt]
  | cons c m ih =>
    rw [List.filter_cons, byteAt_cons]
    by_cases hc : c.1 = i
    · subst hc
      split <;> rename_i hp
      · simp [byteAt_cons]
      · rw [ih, if_neg hp]
    · split <;> simp [byteAt_cons, hc, ih]

/-! ### Writing a byte (R10, R52) -/

theorem Memory.byteAt_setByte (m : Memory) (i j : Nat) (v : Byte) :
    (m.setByte i v).byteAt j = if j = i then v else m.byteAt j := by
  have low := byteAt_filter (fun k => decide (k < i)) m j
  have high := byteAt_filter (fun k => decide (i < k)) m j
  unfold setByte
  by_cases hj : j < i
  · rw [List.append_assoc, byteAt_append_left, low]
    · simp [hj, Nat.ne_of_lt hj]
    · intro c hc
      rcases List.mem_append.1 hc with hc | hc
      · split at hc <;> simp at hc
        subst hc; exact fun h => absurd h (by simp; omega)
      · have := List.mem_filter.1 hc
        simp at this; omega
  · rw [List.append_assoc, byteAt_append_right]
    · by_cases hi : j = i
      · subst hi
        split <;> rename_i hv
        · simp [high, hv]
        · simp [byteAt_cons]
      · rw [if_neg hi, byteAt_append_right, high, if_pos (by simp; omega)]
        intro c hc
        split at hc <;> simp at hc
        subst hc; simpa using fun h : i = j => hi h.symm
    · intro c hc
      have := List.mem_filter.1 hc
      simp at this; omega

/-! ### Storing a sequence (R10) -/

theorem mem_cellsFrom {s : List Byte} {k : Nat} {c : Host.Cell} (h : c ∈ cellsFrom k s) :
    k ≤ c.1 ∧ c.1 < k + s.length ∧ c.2 ≠ 0 := by
  induction s generalizing k with
  | nil => simp [cellsFrom] at h
  | cons b s ih =>
    rw [List.length_cons]
    unfold cellsFrom at h
    split at h <;> rename_i hb
    · have := ih h; exact ⟨by omega, by omega, this.2.2⟩
    · rcases List.mem_cons.1 h with h | h
      · subst h; exact ⟨Nat.le_refl _, by simp, hb⟩
      · have := ih h; exact ⟨by omega, by omega, this.2.2⟩

theorem byteAt_cellsFrom (s : List Byte) (k i : Nat) (h : k ≤ i) :
    (cellsFrom k s).byteAt i = byteOf s (i - k) := by
  induction s generalizing k with
  | nil => simp [cellsFrom, Memory.byteAt, byteOf]
  | cons b s ih =>
    have absent : k = i → (cellsFrom (k + 1) s).byteAt i = 0 := fun hk =>
      Memory.byteAt_absent fun c hc => by have := mem_cellsFrom hc; omega
    rcases Nat.eq_or_lt_of_le h with hk | hk
    · unfold cellsFrom
      split <;> rename_i hb
      · rw [absent hk]; simp [byteOf, hk, hb]
      · simp [Memory.byteAt_cons, byteOf, hk]
    · have step : byteOf (b :: s) (i - k) = byteOf s (i - (k + 1)) := by
        rw [show i - k = (i - (k + 1)) + 1 by omega]; simp [byteOf]
      unfold cellsFrom
      rw [step]
      split
      · exact ih _ hk
      · rw [Memory.byteAt_cons, if_neg (by simp; omega)]; exact ih _ hk

theorem Memory.byteAt_store (m : Memory) (s : List Byte) (j : Nat) :
    (m.store s).byteAt j = if j < s.length then byteOf s j else m.byteAt j := by
  have rest := byteAt_filter (fun k => decide (s.length ≤ k)) m j
  unfold store
  split <;> rename_i hj
  · rw [byteAt_append_left, byteAt_cellsFrom s 0 j (by omega)]
    · simp
    · intro c hc
      have := List.mem_filter.1 hc
      simp at this; omega
  · rw [byteAt_append_right, rest, if_pos (by simp; omega)]
    intro c hc
    have := mem_cellsFrom hc; omega

/-! ### Reading a sequence (R10) -/

@[simp] theorem Memory.length_seq (m : Memory) (n : Nat) : (m.seq n).length = n := by simp [seq]

theorem Memory.byteOf_seq (m : Memory) (n i : Nat) (h : i < n) : byteOf (m.seq n) i = m.byteAt i := by
  simp [byteOf, seq, h]

theorem eq_of_byteOf {s t : List Byte} (hl : s.length = t.length)
    (h : ∀ i < s.length, byteOf s i = byteOf t i) : s = t := by
  apply List.ext_getElem hl
  intro i h1 h2
  simpa [byteOf, h1, h2] using h i h1

theorem Memory.seq_congr {m m' : Memory} {n : Nat} (h : ∀ i < n, m.byteAt i = m'.byteAt i) :
    m.seq n = m'.seq n :=
  eq_of_byteOf (by simp) fun i hi => by
    rw [length_seq] at hi
    rw [byteOf_seq _ _ _ hi, byteOf_seq _ _ _ hi, h i hi]

/-- A stored sequence reads back. -/
theorem Memory.seq_store (m : Memory) (s : List Byte) : (m.store s).seq s.length = s :=
  eq_of_byteOf (by simp) fun i hi => by
    rw [length_seq] at hi
    rw [byteOf_seq _ _ _ hi, byteAt_store, if_pos hi]

theorem Memory.seq_succ (m : Memory) (n : Nat) : m.seq (n + 1) = m.seq n ++ [m.byteAt n] := by
  simp [seq, List.range_succ]

/-! ### The canonical form -/

theorem Memory.wf_nil : Memory.wf [] := by simp [wf]

theorem cellsFrom_wf (s : List Byte) (k : Nat) : (cellsFrom k s).wf := by
  refine ⟨?_, fun c hc => (mem_cellsFrom hc).2.2⟩
  induction s generalizing k with
  | nil => simp [cellsFrom]
  | cons b s ih =>
    unfold cellsFrom
    split
    · exact ih _
    · refine List.pairwise_cons.2 ⟨fun c hc => ?_, ih _⟩
      have := (mem_cellsFrom hc).1
      exact this

theorem Memory.wf_append {m m' : Memory} (h : m.wf) (h' : m'.wf)
    (lt : ∀ c ∈ m, ∀ d ∈ m', c.1 < d.1) : Memory.wf (m ++ m') :=
  ⟨List.pairwise_append.2 ⟨h.1, h'.1, lt⟩, fun c hc => (List.mem_append.1 hc).elim (h.2 c) (h'.2 c)⟩

theorem Memory.wf_filter {m : Memory} (h : m.wf) (p : Host.Cell → Bool) : Memory.wf (m.filter p) :=
  ⟨h.1.filter _, fun c hc => h.2 c (List.mem_filter.1 hc).1⟩

theorem Memory.wf_store {m : Memory} (h : m.wf) (s : List Byte) : (m.store s).wf :=
  wf_append (cellsFrom_wf s 0) (wf_filter h _) fun c hc d hd => by
    have := mem_cellsFrom hc
    have := (List.mem_filter.1 hd).2
    simp at this; omega

theorem Memory.wf_setByte {m : Memory} (h : m.wf) (i : Nat) (v : Byte) : (m.setByte i v).wf := by
  have mid : Memory.wf (if v = 0 then [] else [(i, v)]) := by
    split <;> rename_i hv
    · exact wf_nil
    · exact ⟨List.pairwise_singleton _ _, fun c hc => by rw [List.mem_singleton.1 hc]; exact hv⟩
  refine wf_append (wf_append (wf_filter h _) mid ?_) (wf_filter h _) ?_
  · intro c hc d hd
    have := (List.mem_filter.1 hc).2
    split at hd <;> simp at hd
    subst hd; simpa using this
  · intro c hc d hd
    have hd' := (List.mem_filter.1 hd).2
    rcases List.mem_append.1 hc with hc | hc
    · have := (List.mem_filter.1 hc).2
      simp at this hd'; omega
    · split at hc <;> simp at hc
      subst hc; simpa using hd'

theorem Memory.within_store {m : Memory} {cap : Nat} (h : m.within cap) {s : List Byte}
    (hs : s.length ≤ cap) : (m.store s).within cap := fun c hc => by
  rcases List.mem_append.1 hc with hc | hc
  · have := mem_cellsFrom hc; omega
  · exact h c (List.mem_filter.1 hc).1

theorem Memory.within_setByte {m : Memory} {cap : Nat} (h : m.within cap) {i : Nat} (hi : i < cap)
    (v : Byte) : (m.setByte i v).within cap := fun c hc => by
  rcases List.mem_append.1 hc with hc | hc
  · rcases List.mem_append.1 hc with hc | hc
    · exact h c (List.mem_filter.1 hc).1
    · split at hc <;> simp at hc
      subst hc; exact hi
  · exact h c (List.mem_filter.1 hc).1

/-- In a canonical buffer the first cell is the first nonzero byte. -/
theorem Memory.byteAt_below_head {c : Host.Cell} {m : Memory} (h : Memory.wf (c :: m)) {i : Nat} (hi : i < c.1) :
    Memory.byteAt (c :: m) i = 0 :=
  byteAt_absent fun d hd => by
    rcases List.mem_cons.1 hd with rfl | hd
    · omega
    · have := (List.pairwise_cons.1 h.1).1 d hd; omega

theorem Memory.wf_tail {c : Host.Cell} {m : Memory} (h : Memory.wf (c :: m)) : m.wf :=
  ⟨(List.pairwise_cons.1 h.1).2, fun d hd => h.2 d (List.mem_cons_of_mem _ hd)⟩

/-- Equal buffers are equal data. -/
theorem Memory.ext_of_wf {m m' : Memory} (h : m.wf) (h' : m'.wf) (heq : ∀ i, m.byteAt i = m'.byteAt i) : m = m' := by
  induction m generalizing m' with
  | nil =>
    cases m' with
    | nil => rfl
    | cons d m' =>
      have := heq d.1
      rw [byteAt_cons, if_pos rfl] at this
      exact absurd this.symm (h'.2 d (by simp))
  | cons c m ih =>
    cases m' with
    | nil =>
      have := heq c.1
      rw [byteAt_cons, if_pos rfl] at this
      exact absurd this (h.2 c (by simp))
    | cons d m' =>
      have hc := heq c.1
      have hd := heq d.1
      have cne := h.2 c (by simp)
      have dne := h'.2 d (by simp)
      have key : c.1 = d.1 := by
        rcases Nat.lt_trichotomy c.1 d.1 with lt | eq | gt
        · rw [byteAt_below_head h' lt, byteAt_cons, if_pos rfl] at hc; exact absurd hc cne
        · exact eq
        · rw [byteAt_below_head h gt, byteAt_cons, if_pos rfl] at hd; exact absurd hd.symm dne
      have val : c.2 = d.2 := by simpa [byteAt_cons, key] using hc
      have tails : m = m' := ih (wf_tail h) (wf_tail h') fun i => by
        have hi := heq i
        rw [byteAt_cons, byteAt_cons, key, val] at hi
        by_cases e : d.1 = i
        · have below : ∀ x ∈ m, x.1 ≠ i := fun x hx => by
            have := (List.pairwise_cons.1 h.1).1 x hx; omega
          have below' : ∀ x ∈ m', x.1 ≠ i := fun x hx => by
            have := (List.pairwise_cons.1 h'.1).1 x hx; omega
          rw [byteAt_absent below, byteAt_absent below']
        · simpa [e] using hi
      rw [tails, Prod.ext key val]

/-! ### The sequences of a state -/

@[simp] theorem State.length_ibSeq (s : State) : s.ibSeq.length = s.iblen.toNat := by simp [State.ibSeq]
@[simp] theorem State.length_obSeq (s : State) : s.obSeq.length = s.oblen.toNat := by simp [State.obSeq]
@[simp] theorem State.length_pbSeq (s : State) : s.pbSeq.length = s.plen.toNat := by simp [State.pbSeq]

theorem State.length_srcData (s : State) (src : Src) :
    (s.srcData src).length = match src with | .payload => s.plen.toNat | .input => s.iblen.toNat := by
  cases src <;> simp [State.srcData]

end Sys2Proof.Machine
end

