-- ==== Sys2Proof/Laws/State.lean ====
section
/-! SUPPORT. What each named update of State leaves in each field, so that no later proof unfolds one. -/

namespace Sys2Proof.Machine.State

variable (s : State)

/-! ### setErr -/

@[simp] theorem setErr_params (e : Err) : (s.setErr e).params = s.params := rfl
@[simp] theorem setErr_err (e : Err) : (s.setErr e).err = e := rfl
@[simp] theorem setErr_berr (e : Err) : (s.setErr e).berr = s.berr := rfl
@[simp] theorem setErr_crc (e : Err) : (s.setErr e).crc = s.crc := rfl
@[simp] theorem setErr_iblen (e : Err) : (s.setErr e).iblen = s.iblen := rfl
@[simp] theorem setErr_oblen (e : Err) : (s.setErr e).oblen = s.oblen := rfl
@[simp] theorem setErr_plen (e : Err) : (s.setErr e).plen = s.plen := rfl
@[simp] theorem setErr_tid (e : Err) : (s.setErr e).tid = s.tid := rfl
@[simp] theorem setErr_pid (e : Err) : (s.setErr e).pid = s.pid := rfl
@[simp] theorem setErr_tlen (e : Err) : (s.setErr e).tlen = s.tlen := rfl
@[simp] theorem setErr_addr (e : Err) : (s.setErr e).addr = s.addr := rfl
@[simp] theorem setErr_fn (e : Err) : (s.setErr e).fn = s.fn := rfl
@[simp] theorem setErr_size (e : Err) : (s.setErr e).size = s.size := rfl
@[simp] theorem setErr_ibuf (e : Err) : (s.setErr e).ibuf = s.ibuf := rfl
@[simp] theorem setErr_obuf (e : Err) : (s.setErr e).obuf = s.obuf := rfl
@[simp] theorem setErr_pbuf (e : Err) : (s.setErr e).pbuf = s.pbuf := rfl
@[simp] theorem setErr_rxq (e : Err) : (s.setErr e).rxq = s.rxq := rfl
@[simp] theorem setErr_pending (e : Err) : (s.setErr e).pending = s.pending := rfl
@[simp] theorem setErr_resetPin (e : Err) : (s.setErr e).resetPin = s.resetPin := rfl
@[simp] theorem setErr_reply (e : Err) : (s.setErr e).reply = s.reply := rfl

/-! ### storeIbuf -/

@[simp] theorem storeIbuf_params (d : List Byte) : (s.storeIbuf d).params = s.params := rfl
@[simp] theorem storeIbuf_err (d : List Byte) : (s.storeIbuf d).err = s.err := rfl
@[simp] theorem storeIbuf_berr (d : List Byte) : (s.storeIbuf d).berr = s.berr := rfl
@[simp] theorem storeIbuf_crc (d : List Byte) : (s.storeIbuf d).crc = s.crc := rfl
@[simp] theorem storeIbuf_iblen (d : List Byte) : (s.storeIbuf d).iblen = len18 d.length := rfl
@[simp] theorem storeIbuf_oblen (d : List Byte) : (s.storeIbuf d).oblen = s.oblen := rfl
@[simp] theorem storeIbuf_plen (d : List Byte) : (s.storeIbuf d).plen = s.plen := rfl
@[simp] theorem storeIbuf_tid (d : List Byte) : (s.storeIbuf d).tid = s.tid := rfl
@[simp] theorem storeIbuf_pid (d : List Byte) : (s.storeIbuf d).pid = s.pid := rfl
@[simp] theorem storeIbuf_tlen (d : List Byte) : (s.storeIbuf d).tlen = s.tlen := rfl
@[simp] theorem storeIbuf_addr (d : List Byte) : (s.storeIbuf d).addr = s.addr := rfl
@[simp] theorem storeIbuf_fn (d : List Byte) : (s.storeIbuf d).fn = s.fn := rfl
@[simp] theorem storeIbuf_size (d : List Byte) : (s.storeIbuf d).size = s.size := rfl
@[simp] theorem storeIbuf_ibuf (d : List Byte) : (s.storeIbuf d).ibuf = s.ibuf.store d := rfl
@[simp] theorem storeIbuf_obuf (d : List Byte) : (s.storeIbuf d).obuf = s.obuf := rfl
@[simp] theorem storeIbuf_pbuf (d : List Byte) : (s.storeIbuf d).pbuf = s.pbuf := rfl
@[simp] theorem storeIbuf_rxq (d : List Byte) : (s.storeIbuf d).rxq = s.rxq := rfl
@[simp] theorem storeIbuf_pending (d : List Byte) : (s.storeIbuf d).pending = s.pending := rfl
@[simp] theorem storeIbuf_resetPin (d : List Byte) : (s.storeIbuf d).resetPin = s.resetPin := rfl
@[simp] theorem storeIbuf_reply (d : List Byte) : (s.storeIbuf d).reply = s.reply := rfl

/-! ### storeObuf -/

@[simp] theorem storeObuf_params (d : List Byte) : (s.storeObuf d).params = s.params := rfl
@[simp] theorem storeObuf_err (d : List Byte) : (s.storeObuf d).err = s.err := rfl
@[simp] theorem storeObuf_berr (d : List Byte) : (s.storeObuf d).berr = s.berr := rfl
@[simp] theorem storeObuf_crc (d : List Byte) : (s.storeObuf d).crc = s.crc := rfl
@[simp] theorem storeObuf_iblen (d : List Byte) : (s.storeObuf d).iblen = s.iblen := rfl
@[simp] theorem storeObuf_oblen (d : List Byte) : (s.storeObuf d).oblen = len18 d.length := rfl
@[simp] theorem storeObuf_plen (d : List Byte) : (s.storeObuf d).plen = s.plen := rfl
@[simp] theorem storeObuf_tid (d : List Byte) : (s.storeObuf d).tid = s.tid := rfl
@[simp] theorem storeObuf_pid (d : List Byte) : (s.storeObuf d).pid = s.pid := rfl
@[simp] theorem storeObuf_tlen (d : List Byte) : (s.storeObuf d).tlen = s.tlen := rfl
@[simp] theorem storeObuf_addr (d : List Byte) : (s.storeObuf d).addr = s.addr := rfl
@[simp] theorem storeObuf_fn (d : List Byte) : (s.storeObuf d).fn = s.fn := rfl
@[simp] theorem storeObuf_size (d : List Byte) : (s.storeObuf d).size = s.size := rfl
@[simp] theorem storeObuf_ibuf (d : List Byte) : (s.storeObuf d).ibuf = s.ibuf := rfl
@[simp] theorem storeObuf_obuf (d : List Byte) : (s.storeObuf d).obuf = s.obuf.store d := rfl
@[simp] theorem storeObuf_pbuf (d : List Byte) : (s.storeObuf d).pbuf = s.pbuf := rfl
@[simp] theorem storeObuf_rxq (d : List Byte) : (s.storeObuf d).rxq = s.rxq := rfl
@[simp] theorem storeObuf_pending (d : List Byte) : (s.storeObuf d).pending = s.pending := rfl
@[simp] theorem storeObuf_resetPin (d : List Byte) : (s.storeObuf d).resetPin = s.resetPin := rfl
@[simp] theorem storeObuf_reply (d : List Byte) : (s.storeObuf d).reply = s.reply := rfl

/-! ### storePbuf -/

@[simp] theorem storePbuf_params (d : List Byte) : (s.storePbuf d).params = s.params := rfl
@[simp] theorem storePbuf_err (d : List Byte) : (s.storePbuf d).err = s.err := rfl
@[simp] theorem storePbuf_berr (d : List Byte) : (s.storePbuf d).berr = s.berr := rfl
@[simp] theorem storePbuf_crc (d : List Byte) : (s.storePbuf d).crc = s.crc := rfl
@[simp] theorem storePbuf_iblen (d : List Byte) : (s.storePbuf d).iblen = s.iblen := rfl
@[simp] theorem storePbuf_oblen (d : List Byte) : (s.storePbuf d).oblen = s.oblen := rfl
@[simp] theorem storePbuf_plen (d : List Byte) : (s.storePbuf d).plen = len18 d.length := rfl
@[simp] theorem storePbuf_tid (d : List Byte) : (s.storePbuf d).tid = s.tid := rfl
@[simp] theorem storePbuf_pid (d : List Byte) : (s.storePbuf d).pid = s.pid := rfl
@[simp] theorem storePbuf_tlen (d : List Byte) : (s.storePbuf d).tlen = s.tlen := rfl
@[simp] theorem storePbuf_addr (d : List Byte) : (s.storePbuf d).addr = s.addr := rfl
@[simp] theorem storePbuf_fn (d : List Byte) : (s.storePbuf d).fn = s.fn := rfl
@[simp] theorem storePbuf_size (d : List Byte) : (s.storePbuf d).size = s.size := rfl
@[simp] theorem storePbuf_ibuf (d : List Byte) : (s.storePbuf d).ibuf = s.ibuf := rfl
@[simp] theorem storePbuf_obuf (d : List Byte) : (s.storePbuf d).obuf = s.obuf := rfl
@[simp] theorem storePbuf_pbuf (d : List Byte) : (s.storePbuf d).pbuf = s.pbuf.store d := rfl
@[simp] theorem storePbuf_rxq (d : List Byte) : (s.storePbuf d).rxq = s.rxq := rfl
@[simp] theorem storePbuf_pending (d : List Byte) : (s.storePbuf d).pending = s.pending := rfl
@[simp] theorem storePbuf_resetPin (d : List Byte) : (s.storePbuf d).resetPin = s.resetPin := rfl
@[simp] theorem storePbuf_reply (d : List Byte) : (s.storePbuf d).reply = s.reply := rfl

/-! ### setFrame -/

@[simp] theorem setFrame_params (a f : Byte) : (s.setFrame a f).params = s.params := rfl
@[simp] theorem setFrame_err (a f : Byte) : (s.setFrame a f).err = s.err := rfl
@[simp] theorem setFrame_berr (a f : Byte) : (s.setFrame a f).berr = s.berr := rfl
@[simp] theorem setFrame_crc (a f : Byte) : (s.setFrame a f).crc = s.crc := rfl
@[simp] theorem setFrame_iblen (a f : Byte) : (s.setFrame a f).iblen = s.iblen := rfl
@[simp] theorem setFrame_oblen (a f : Byte) : (s.setFrame a f).oblen = s.oblen := rfl
@[simp] theorem setFrame_plen (a f : Byte) : (s.setFrame a f).plen = s.plen := rfl
@[simp] theorem setFrame_tid (a f : Byte) : (s.setFrame a f).tid = s.tid := rfl
@[simp] theorem setFrame_pid (a f : Byte) : (s.setFrame a f).pid = s.pid := rfl
@[simp] theorem setFrame_tlen (a f : Byte) : (s.setFrame a f).tlen = s.tlen := rfl
@[simp] theorem setFrame_addr (a f : Byte) : (s.setFrame a f).addr = a := rfl
@[simp] theorem setFrame_fn (a f : Byte) : (s.setFrame a f).fn = f := rfl
@[simp] theorem setFrame_size (a f : Byte) : (s.setFrame a f).size = s.size := rfl
@[simp] theorem setFrame_ibuf (a f : Byte) : (s.setFrame a f).ibuf = s.ibuf := rfl
@[simp] theorem setFrame_obuf (a f : Byte) : (s.setFrame a f).obuf = s.obuf := rfl
@[simp] theorem setFrame_pbuf (a f : Byte) : (s.setFrame a f).pbuf = s.pbuf := rfl
@[simp] theorem setFrame_rxq (a f : Byte) : (s.setFrame a f).rxq = s.rxq := rfl
@[simp] theorem setFrame_pending (a f : Byte) : (s.setFrame a f).pending = s.pending := rfl
@[simp] theorem setFrame_resetPin (a f : Byte) : (s.setFrame a f).resetPin = s.resetPin := rfl
@[simp] theorem setFrame_reply (a f : Byte) : (s.setFrame a f).reply = s.reply := rfl

/-! ### busError -/

@[simp] theorem busError_params : (s.busError).params = s.params := rfl
@[simp] theorem busError_err : (s.busError).err = s.err := rfl
@[simp] theorem busError_berr : (s.busError).berr = true := rfl
@[simp] theorem busError_crc : (s.busError).crc = s.crc := rfl
@[simp] theorem busError_iblen : (s.busError).iblen = s.iblen := rfl
@[simp] theorem busError_oblen : (s.busError).oblen = s.oblen := rfl
@[simp] theorem busError_plen : (s.busError).plen = s.plen := rfl
@[simp] theorem busError_tid : (s.busError).tid = s.tid := rfl
@[simp] theorem busError_pid : (s.busError).pid = s.pid := rfl
@[simp] theorem busError_tlen : (s.busError).tlen = s.tlen := rfl
@[simp] theorem busError_addr : (s.busError).addr = s.addr := rfl
@[simp] theorem busError_fn : (s.busError).fn = s.fn := rfl
@[simp] theorem busError_size : (s.busError).size = s.size := rfl
@[simp] theorem busError_ibuf : (s.busError).ibuf = s.ibuf := rfl
@[simp] theorem busError_obuf : (s.busError).obuf = s.obuf := rfl
@[simp] theorem busError_pbuf : (s.busError).pbuf = s.pbuf := rfl
@[simp] theorem busError_rxq : (s.busError).rxq = s.rxq := rfl
@[simp] theorem busError_pending : (s.busError).pending = s.pending := rfl
@[simp] theorem busError_resetPin : (s.busError).resetPin = s.resetPin := rfl
@[simp] theorem busError_reply : (s.busError).reply = s.reply := rfl

/-! ### advance -/

@[simp] theorem advance_params (r : List HostEvent) : (s.advance r).params = s.params := rfl
@[simp] theorem advance_err (r : List HostEvent) : (s.advance r).err = s.err := rfl
@[simp] theorem advance_berr (r : List HostEvent) : (s.advance r).berr = s.berr := rfl
@[simp] theorem advance_crc (r : List HostEvent) : (s.advance r).crc = s.crc := rfl
@[simp] theorem advance_iblen (r : List HostEvent) : (s.advance r).iblen = s.iblen := rfl
@[simp] theorem advance_oblen (r : List HostEvent) : (s.advance r).oblen = s.oblen := rfl
@[simp] theorem advance_plen (r : List HostEvent) : (s.advance r).plen = s.plen := rfl
@[simp] theorem advance_tid (r : List HostEvent) : (s.advance r).tid = s.tid := rfl
@[simp] theorem advance_pid (r : List HostEvent) : (s.advance r).pid = s.pid := rfl
@[simp] theorem advance_tlen (r : List HostEvent) : (s.advance r).tlen = s.tlen := rfl
@[simp] theorem advance_addr (r : List HostEvent) : (s.advance r).addr = s.addr := rfl
@[simp] theorem advance_fn (r : List HostEvent) : (s.advance r).fn = s.fn := rfl
@[simp] theorem advance_size (r : List HostEvent) : (s.advance r).size = s.size := rfl
@[simp] theorem advance_ibuf (r : List HostEvent) : (s.advance r).ibuf = s.ibuf := rfl
@[simp] theorem advance_obuf (r : List HostEvent) : (s.advance r).obuf = s.obuf := rfl
@[simp] theorem advance_pbuf (r : List HostEvent) : (s.advance r).pbuf = s.pbuf := rfl
@[simp] theorem advance_rxq (r : List HostEvent) : (s.advance r).rxq = s.rxq := rfl
@[simp] theorem advance_pending (r : List HostEvent) : (s.advance r).pending = r := rfl
@[simp] theorem advance_resetPin (r : List HostEvent) : (s.advance r).resetPin = s.resetPin := rfl
@[simp] theorem advance_reply (r : List HostEvent) : (s.advance r).reply = .none := rfl

/-! ### applyReset -/

@[simp] theorem applyReset_params : (s.applyReset).params = s.params := rfl
@[simp] theorem applyReset_err : (s.applyReset).err = .ok := rfl
@[simp] theorem applyReset_berr : (s.applyReset).berr = false := rfl
@[simp] theorem applyReset_crc : (s.applyReset).crc = 0xFFFF := rfl
@[simp] theorem applyReset_iblen : (s.applyReset).iblen = 0 := rfl
@[simp] theorem applyReset_oblen : (s.applyReset).oblen = 0 := rfl
@[simp] theorem applyReset_plen : (s.applyReset).plen = 0 := rfl
@[simp] theorem applyReset_tid : (s.applyReset).tid = 0 := rfl
@[simp] theorem applyReset_pid : (s.applyReset).pid = 0 := rfl
@[simp] theorem applyReset_tlen : (s.applyReset).tlen = 0 := rfl
@[simp] theorem applyReset_addr : (s.applyReset).addr = 0 := rfl
@[simp] theorem applyReset_fn : (s.applyReset).fn = 0 := rfl
@[simp] theorem applyReset_size : (s.applyReset).size = 0 := rfl
@[simp] theorem applyReset_ibuf : (s.applyReset).ibuf = [] := rfl
@[simp] theorem applyReset_obuf : (s.applyReset).obuf = [] := rfl
@[simp] theorem applyReset_pbuf : (s.applyReset).pbuf = [] := rfl
@[simp] theorem applyReset_rxq : (s.applyReset).rxq = [] := rfl
@[simp] theorem applyReset_pending : (s.applyReset).pending = s.pending := rfl
@[simp] theorem applyReset_resetPin : (s.applyReset).resetPin = s.resetPin := rfl
@[simp] theorem applyReset_reply : (s.applyReset).reply = s.reply := rfl

end Sys2Proof.Machine.State
end

