-- ==== Sys2Proof/Laws/Values.lean ====
section
/-! SUPPORT. The 16-bit value and its two bytes (00_scope.md R8), the length registers, and byte sequences (R9). -/

namespace Sys2Proof.Machine

/-! ### Two bytes and a 16-bit value -/

@[simp] theorem lo8_be16 (h l : Byte) : lo8 (be16 h l) = l := by
  apply BitVec.eq_of_getLsbD_eq; intro i hi
  simp only [lo8, be16, BitVec.getLsbD_extractLsb', BitVec.getLsbD_append]
  simp [hi]

@[simp] theorem hi8_be16 (h l : Byte) : hi8 (be16 h l) = h := by
  apply BitVec.eq_of_getLsbD_eq; intro i hi
  simp only [hi8, be16, BitVec.getLsbD_extractLsb', BitVec.getLsbD_append]
  simp [hi]

@[simp] theorem be16_hi8_lo8 (v : Half) : be16 (hi8 v) (lo8 v) = v := by
  apply BitVec.eq_of_getLsbD_eq; intro i hi
  simp only [hi8, lo8, be16, BitVec.getLsbD_append, BitVec.getLsbD_extractLsb']
  split
  · simp_all
  · simp [show 8 + (i - 8) = i by omega, show i - 8 < 8 by omega]

theorem toNat_be16 (h l : Byte) : (be16 h l).toNat = h.toNat * 256 + l.toNat := by
  simp only [be16, BitVec.toNat_append]
  rw [← Nat.shiftLeft_add_eq_or_of_lt l.isLt, Nat.shiftLeft_eq]

theorem be16_inj {h l h' l' : Byte} (e : be16 h l = be16 h' l') : h = h' ∧ l = l' :=
  ⟨by simpa using congrArg hi8 e, by simpa using congrArg lo8 e⟩

/-- Two values with the same bytes are equal. -/
theorem half_ext {v w : Half} (h : hi8 v = hi8 w) (l : lo8 v = lo8 w) : v = w := by
  rw [← be16_hi8_lo8 v, h, l, be16_hi8_lo8]

@[simp] theorem lo8_xor (v w : Half) : lo8 (v ^^^ w) = lo8 v ^^^ lo8 w := by
  apply BitVec.eq_of_getLsbD_eq; intro i hi
  simp only [lo8, BitVec.getLsbD_extractLsb', BitVec.getLsbD_xor]
  simp [hi]
@[simp] theorem hi8_xor (v w : Half) : hi8 (v ^^^ w) = hi8 v ^^^ hi8 w := by
  apply BitVec.eq_of_getLsbD_eq; intro i hi
  simp only [hi8, BitVec.getLsbD_extractLsb', BitVec.getLsbD_xor]
  simp [hi]

@[simp] theorem lo8_setWidth (b : Byte) : lo8 (b.setWidth 16) = b := by
  apply BitVec.eq_of_getLsbD_eq; intro i hi
  simp [lo8, hi]; omega

@[simp] theorem lo8_shiftRight (v : Half) : lo8 (v >>> 8) = hi8 v := by
  apply BitVec.eq_of_getLsbD_eq; intro i hi
  simp [lo8, hi8, hi]

@[simp] theorem hi8_shiftRight (v : Half) : hi8 (v >>> 8) = 0 := by
  apply BitVec.eq_of_getLsbD_eq; intro i hi
  simp only [hi8, BitVec.getLsbD_extractLsb', BitVec.getLsbD_ushiftRight]
  rw [BitVec.getLsbD_of_ge v _ (by omega)]
  simp

/-! ### Length registers -/

theorem toNat_len18 {n : Nat} (h : n < 262144) : (len18 n).toNat = n := by
  simp [len18]; omega

@[simp] theorem len18_toNat (v : Len) : len18 v.toNat = v := by simp [len18]

/-! ### Byte sequences -/

@[simp] theorem byteOf_nil (i : Nat) : byteOf [] i = 0 := rfl

theorem byteOf_past {b : List Byte} {i : Nat} (h : b.length ≤ i) : byteOf b i = 0 := by
  simp [byteOf, h]

theorem byteOf_append (a b : List Byte) (i : Nat) :
    byteOf (a ++ b) i = if i < a.length then byteOf a i else byteOf b (i - a.length) := by
  unfold byteOf
  split <;> rename_i h
  · simp [List.getD_eq_getElem?_getD, List.getElem?_append_left h]
  · simp [List.getD_eq_getElem?_getD, List.getElem?_append_right (Nat.not_lt.1 h)]

theorem byteOf_drop (b : List Byte) (k i : Nat) : byteOf (b.drop k) i = byteOf b (i + k) := by
  simp [byteOf, List.getD_eq_getElem?_getD, Nat.add_comm]

theorem byteOf_take {b : List Byte} {k i : Nat} (h : i < k) : byteOf (b.take k) i = byteOf b i := by
  simp [byteOf, List.getD_eq_getElem?_getD, h]

theorem length_slice (b : List Byte) (lo hi : Nat) (h : hi ≤ b.length) : (slice b lo hi).length = hi - lo := by
  simp [slice]; omega

theorem byteOf_slice {b : List Byte} {lo hi i : Nat} (h : i < hi - lo) :
    byteOf (slice b lo hi) i = byteOf b (i + lo) := by
  rw [slice, byteOf_take h, byteOf_drop]

end Sys2Proof.Machine
end

