-- ==== Sys2Proof/Laws/Commands.lean ====
section
/-! SUPPORT. How each command ends: one lemma per command or shared operation, saying everything it can do, for later
proofs to cite. -/

namespace Sys2Proof.Machine

/-! ### Ending a command (00_scope.md R12) -/

@[simp] theorem raise_next {e : Err} {s t : State} : raise e s = .next t ↔ t = s.setErr e := by
  simp [raise, eq_comm]

@[simp] theorem done_next {s t : State} : done s = .next t ↔ t = s.setErr .ok := by
  simp [done, eq_comm]

/-! ### The commands with checks -/

theorem execIbPush_cases (b : Byte) (s : State) :
    (s.iblen.toNat = s.params.ibufCap ∧ execIbPush b s = raise .overflow s) ∨
    (s.iblen.toNat ≠ s.params.ibufCap ∧ execIbPush b s =
      done { s with ibuf := s.ibuf.setByte s.iblen.toNat b, iblen := len18 (s.iblen.toNat + 1) }) := by
  unfold execIbPush; split <;> simp_all

theorem execObMov_cases (s : State) :
    (s.params.ibufCap < s.oblen.toNat ∧ execObMov s = raise .overflow s) ∨
    (s.oblen.toNat ≤ s.params.ibufCap ∧ execObMov s = done (s.storeIbuf s.obSeq)) := by
  unfold execObMov
  rcases Nat.lt_or_ge s.params.ibufCap s.oblen.toNat with h | h
  · exact .inl ⟨h, if_pos h⟩
  · exact .inr ⟨h, if_neg (by omega)⟩

theorem execRtuEnc_cases (s : State) :
    (s.params.obufCap < s.plen.toNat + 4 ∧ execRtuEnc s = raise .overflow s) ∨
    (s.plen.toNat + 4 ≤ s.params.obufCap ∧ execRtuEnc s = done (s.storeObuf s.rtuFrame)) := by
  unfold execRtuEnc
  rcases Nat.lt_or_ge s.params.obufCap (s.plen.toNat + 4) with h | h
  · exact .inl ⟨h, if_pos h⟩
  · exact .inr ⟨h, if_neg (by omega)⟩

@[simp] theorem length_rtuFrame (s : State) : s.rtuFrame.length = s.plen.toNat + 4 := by
  simp [State.rtuFrame, crcBytes]

/-- The checks of an RTU decode, in their order. -/
theorem rtuError_cases (s : State) (overhead : Nat) :
    (s.iblen.toNat < 5 ∧ s.rtuError overhead = some .short) ∨
    (5 ≤ s.iblen.toNat ∧ crcGood s.ibSeq = false ∧ s.rtuError overhead = some .crc) ∨
    (5 ≤ s.iblen.toNat ∧ crcGood s.ibSeq = true ∧ s.params.pbufCap < s.iblen.toNat - overhead ∧
      s.rtuError overhead = some .overflow) ∨
    (5 ≤ s.iblen.toNat ∧ crcGood s.ibSeq = true ∧ s.iblen.toNat - overhead ≤ s.params.pbufCap ∧
      s.rtuError overhead = none) := by
  unfold State.rtuError
  rcases Nat.lt_or_ge s.iblen.toNat 5 with h | h
  · exact .inl ⟨h, if_pos h⟩
  · rw [if_neg (by omega)]
    cases hc : crcGood s.ibSeq with
    | false => exact .inr (.inl ⟨h, rfl, by simp⟩)
    | true =>
      rcases Nat.lt_or_ge s.params.pbufCap (s.iblen.toNat - overhead) with hp | hp
      · exact .inr (.inr (.inl ⟨h, rfl, hp, by simp; omega⟩))
      · exact .inr (.inr (.inr ⟨h, rfl, hp, by simp; omega⟩))

theorem execRtuDecq_cases (s : State) :
    (∃ e, s.rtuError 4 = some e ∧ execRtuDecq s = raise e s) ∨
    (s.rtuError 4 = none ∧ execRtuDecq s =
      done ((s.setFrame (byteOf s.ibSeq 0) (byteOf s.ibSeq 1)).storePbuf
        (slice s.ibSeq 2 (s.iblen.toNat - 2)))) := by
  unfold execRtuDecq
  cases h : s.rtuError 4 with
  | some e => exact .inl ⟨e, rfl, rfl⟩
  | none => exact .inr ⟨rfl, rfl⟩

theorem execRtuDecr_cases (s : State) :
    (∃ e, s.rtuError 5 = some e ∧ execRtuDecr s = raise e s) ∨
    (s.rtuError 5 = none ∧ execRtuDecr s =
      done ({ s.setFrame (byteOf s.ibSeq 0) (byteOf s.ibSeq 1) with size := byteOf s.ibSeq 2 }.storePbuf
        (slice s.ibSeq 3 (s.iblen.toNat - 2)))) := by
  unfold execRtuDecr
  cases h : s.rtuError 5 with
  | some e => exact .inl ⟨e, rfl, rfl⟩
  | none => exact .inr ⟨rfl, rfl⟩

theorem execTcpDec_cases (s : State) :
    (s.iblen.toNat < 8 ∧ execTcpDec s = raise .short s) ∨
    (8 ≤ s.iblen.toNat ∧ s.iblen.toNat ≠ (be16 (byteOf s.ibSeq 4) (byteOf s.ibSeq 5)).toNat + 6 ∧
      execTcpDec s = raise .length s) ∨
    (8 ≤ s.iblen.toNat ∧ s.iblen.toNat = (be16 (byteOf s.ibSeq 4) (byteOf s.ibSeq 5)).toNat + 6 ∧
      execTcpDec s = done (({ s with
        tid := be16 (byteOf s.ibSeq 0) (byteOf s.ibSeq 1), pid := be16 (byteOf s.ibSeq 2) (byteOf s.ibSeq 3),
        tlen := be16 (byteOf s.ibSeq 4) (byteOf s.ibSeq 5) }.setFrame
          (byteOf s.ibSeq 6) (byteOf s.ibSeq 7)).storePbuf (slice s.ibSeq 8 s.iblen.toNat))) := by
  unfold execTcpDec
  rcases Nat.lt_or_ge s.iblen.toNat 8 with h | h
  · exact .inl ⟨h, if_pos h⟩
  · refine .inr ?_
    by_cases hl : s.iblen.toNat = (be16 (byteOf s.ibSeq 4) (byteOf s.ibSeq 5)).toNat + 6
    · exact .inr ⟨h, hl, by rw [if_neg (by omega), if_neg (by simpa using hl)]⟩
    · exact .inl ⟨h, hl, by rw [if_neg (by omega), if_pos hl]⟩

theorem execTcpEnc_cases (s : State) :
    ((65533 < s.plen.toNat ∨ s.params.obufCap < s.plen.toNat + 8) ∧ execTcpEnc s = raise .overflow s) ∨
    (s.plen.toNat ≤ 65533 ∧ s.plen.toNat + 8 ≤ s.params.obufCap ∧
      execTcpEnc s = done { s.storeObuf (s.tcpFrame (BitVec.ofNat 16 (s.plen.toNat + 2))) with
        tlen := BitVec.ofNat 16 (s.plen.toNat + 2) }) := by
  unfold execTcpEnc
  rcases Nat.lt_or_ge 65533 s.plen.toNat with h | h
  · exact .inl ⟨.inl h, if_pos h⟩
  · rw [if_neg (by omega)]
    rcases Nat.lt_or_ge s.params.obufCap (s.plen.toNat + 8) with hc | hc
    · exact .inl ⟨.inr hc, if_pos hc⟩
    · exact .inr ⟨h, hc, if_neg (by omega)⟩

@[simp] theorem length_tcpFrame (s : State) (l : Half) : (s.tcpFrame l).length = s.plen.toNat + 8 := by
  simp [State.tcpFrame]

theorem execTcpSetp_cases (src : Src) (s : State) :
    (s.params.pbufCap < (s.srcData src).length ∧ execTcpSetp src s = raise .overflow s) ∨
    ((s.srcData src).length ≤ s.params.pbufCap ∧ execTcpSetp src s = done (s.storePbuf (s.srcData src))) := by
  unfold execTcpSetp
  rcases Nat.lt_or_ge s.params.pbufCap (s.srcData src).length with h | h
  · exact .inl ⟨h, if_pos h⟩
  · exact .inr ⟨h, if_neg (by omega)⟩

theorem execTcpSetps_cases (src : Src) (s : State) :
    ((255 < (s.srcData src).length ∨ s.params.pbufCap < (s.srcData src).length + 1) ∧
      execTcpSetps src s = raise .overflow s) ∨
    ((s.srcData src).length ≤ 255 ∧ (s.srcData src).length + 1 ≤ s.params.pbufCap ∧
      execTcpSetps src s = done (s.storePbuf (withSize (s.srcData src)))) := by
  unfold execTcpSetps
  rcases Nat.lt_or_ge 255 (s.srcData src).length with h | h
  · exact .inl ⟨.inl h, if_pos h⟩
  · rcases Nat.lt_or_ge s.params.pbufCap ((s.srcData src).length + 1) with hc | hc
    · exact .inl ⟨.inr hc, by simp only [if_neg (show ¬(s.srcData src).length > 255 by omega)]; exact if_pos hc⟩
    · exact .inr ⟨h, hc, by
        simp only [if_neg (show ¬(s.srcData src).length > 255 by omega)]; exact if_neg (by omega)⟩

theorem execRxPush_cases (s : State) :
    (s.params.rxqCap < s.rxq.length + s.iblen.toNat ∧ execRxPush s = raise .overflow s) ∨
    (s.rxq.length + s.iblen.toNat ≤ s.params.rxqCap ∧ execRxPush s = done { s with rxq := s.rxq ++ s.ibSeq }) := by
  unfold execRxPush
  rcases Nat.lt_or_ge s.params.rxqCap (s.rxq.length + s.iblen.toNat) with h | h
  · exact .inl ⟨h, if_pos h⟩
  · exact .inr ⟨h, if_neg (by omega)⟩

/-- The availability of a frame, as a fact about lengths (43_stream.md R160). -/
theorem avail_iff (q : List Byte) : avail q = true ↔ 6 ≤ q.length ∧ flen q ≤ q.length := by simp [avail]

theorem flen_lt (q : List Byte) : flen q < 65542 := by
  have := (be16 (byteOf q 4) (byteOf q 5)).isLt
  unfold flen; omega

theorem execRxPop_cases (s : State) :
    (avail s.rxq = false ∧ execRxPop s = raise .noFrame s) ∨
    (avail s.rxq = true ∧ s.params.ibufCap < flen s.rxq ∧ execRxPop s = raise .overflow s) ∨
    (avail s.rxq = true ∧ flen s.rxq ≤ s.params.ibufCap ∧ execRxPop s =
      done { s.storeIbuf (s.rxq.take (flen s.rxq)) with rxq := s.rxq.drop (flen s.rxq) }) := by
  unfold execRxPop
  cases h : avail s.rxq with
  | false => exact .inl ⟨rfl, by simp⟩
  | true =>
    rcases Nat.lt_or_ge s.params.ibufCap (flen s.rxq) with hc | hc
    · exact .inr (.inl ⟨rfl, hc, by simp [hc]⟩)
    · exact .inr (.inr ⟨rfl, hc, by simp [Nat.not_lt.2 hc]⟩)

end Sys2Proof.Machine
end

