-- ==== Sys2Proof/Laws/Bus.lean ====
section
/-! SUPPORT. The host address map said once (20_memory.md R51): what `regAt` and `winAt` answer, in terms of addresses
as numbers, and how a step serves an access. -/

namespace Sys2Proof.Machine

/-! ### Registers -/

theorem regOffset_aligned (r : Reg) : (regOffset r).toNat ≤ 0x4C ∧ (regOffset r).toNat % 4 = 0 := by
  cases r <;> decide

theorem regAt_regOffset (r : Reg) : regAt (regOffset r) = some r := by cases r <;> rfl

/-- An address reaches a register exactly when it is that register's offset. -/
theorem regAt_eq_some {a : Addr} {r : Reg} : regAt a = some r ↔ a = regOffset r := by
  constructor
  · intro h
    unfold regAt at h
    split at h <;> simp at h <;> subst h <;>
      (apply BitVec.eq_of_toNat_eq; rename_i ha; rw [ha]; rfl)
  · rintro rfl; exact regAt_regOffset r

theorem regAt_eq_none {a : Addr} : regAt a = none ↔ ∀ r, a.toNat ≠ (regOffset r).toNat := by
  constructor
  · intro h r hr
    rw [BitVec.eq_of_toNat_eq hr, regAt_regOffset] at h
    cases h
  · intro h
    cases e : regAt a with
    | none => rfl
    | some r => exact absurd (congrArg BitVec.toNat (regAt_eq_some.1 e)) (h r)

/-! ### Windows -/

theorem winOffset_eq (a : Addr) : winOffset a = a.toNat % 0x20000 := by
  simp [winOffset, BitVec.extractLsb'_toNat]

theorem winOf_eq_some {a : Addr} {w : Win} : winOf a = some w ↔ w.base ≤ a.toNat ∧ a.toNat ≤ w.base + 0x1FFFF := by
  have top : (a.extractLsb' 17 3).toNat = a.toNat / 0x20000 := by
    have := a.isLt
    simp [BitVec.extractLsb'_toNat, Nat.shiftRight_eq_div_pow]; omega
  unfold winOf
  rw [top]
  constructor
  · intro h
    split at h <;> simp at h <;> subst h <;> simp [Win.base] <;> omega
  · intro h
    have index : a.toNat / 0x20000 = w.base / 0x20000 := by cases w <;> simp [Win.base] at * <;> omega
    rw [index]; cases w <;> rfl

/-- An access reaches byte `i` of a window exactly when it lies in the window, at offset `i`, below the capacity. -/
theorem winAt_eq_some {p : Config.Params} {a : Addr} {w : Win} {i : Nat} :
    winAt p a = some (w, i) ↔
      (w.base ≤ a.toNat ∧ a.toNat ≤ w.base + 0x1FFFF) ∧ i = a.toNat - w.base ∧ i < winCap p w := by
  have offset : ∀ w : Win, (w.base ≤ a.toNat ∧ a.toNat ≤ w.base + 0x1FFFF) → winOffset a = a.toNat - w.base := by
    intro w hw
    rw [winOffset_eq]
    cases w <;> simp [Win.base] at * <;> omega
  unfold winAt
  constructor
  · intro h
    split at h
    · rename_i w' hw
      have hin := winOf_eq_some.1 hw
      rw [offset w' hin] at h
      split at h
      · simp only [Option.some.injEq, Prod.mk.injEq] at h
        obtain ⟨rfl, rfl⟩ := h
        exact ⟨hin, rfl, by assumption⟩
      · cases h
    · cases h
  · rintro ⟨hin, rfl, hi⟩
    rw [winOf_eq_some.2 hin, offset w hin]
    exact if_pos hi

theorem winAt_eq_none {p : Config.Params} {a : Addr} :
    winAt p a = none ↔
      ∀ w : Win, (w.base ≤ a.toNat ∧ a.toNat ≤ w.base + 0x1FFFF) → winCap p w ≤ a.toNat - w.base := by
  constructor
  · intro h w hin
    by_contra hc
    have := winAt_eq_some.2 ⟨hin, rfl, Nat.lt_of_not_le hc⟩
    rw [h] at this; cases this
  · intro h
    cases e : winAt p a with
    | none => rfl
    | some x =>
      obtain ⟨hin, offset, hi⟩ := winAt_eq_some.1 (show winAt p a = some (x.1, x.2) from e)
      exact absurd (h x.1 hin) (by omega)

/-! ### A step -/

/-- With the reset input released, the step is the access. -/
theorem step_access (s : State) (a : Access) (rest : List HostEvent) (h : s.resetPin = false) :
    step { s with pending := .access a :: rest } = hostAccess { s with pending := rest, reply := .none } a := by
  show serve (State.advance _ rest) (.access a) = _
  simp only [serve, State.advance, h, Bool.false_eq_true, if_false]

end Sys2Proof.Machine
end

