-- ==== Sys2Proof/Laws/Crc.lean ====
section
/-! SUPPORT. The CRC engine: the two bytes of a step, that the table's high bytes tell its indices apart, and that a step
is one-to-one in the accumulator and in the byte. -/

namespace Sys2Proof.Machine

/-- The index at which the table's high byte is `h`. -/
def crcIndex (h : Byte) : Nat := crcTable.findIdx (fun e => hi8 e == h)

theorem crcIndex_low : (List.range 128).all
    (fun n => crcIndex (hi8 (crcEntry (BitVec.ofNat 8 n))) == n) = true := by decide +kernel

theorem crcIndex_high : (List.range 128).all
    (fun n => crcIndex (hi8 (crcEntry (BitVec.ofNat 8 (128 + n)))) == 128 + n) = true := by decide +kernel

theorem crcIndex_hi8_crcEntry (i : Byte) : crcIndex (hi8 (crcEntry i)) = i.toNat := by
  have hi := i.isLt
  rcases Nat.lt_or_ge i.toNat 128 with h | h
  · simpa using List.all_eq_true.1 crcIndex_low i.toNat (by simpa using h)
  · have := List.all_eq_true.1 crcIndex_high (i.toNat - 128) (by simp; omega)
    rw [Nat.add_sub_cancel' h] at this
    simpa using this

/-- The high byte of a table entry determines its index. -/
theorem crcEntry_hi8_inj {i j : Byte} (h : hi8 (crcEntry i) = hi8 (crcEntry j)) : i = j :=
  BitVec.eq_of_toNat_eq (by rw [← crcIndex_hi8_crcEntry, ← crcIndex_hi8_crcEntry, h])

@[simp] theorem crcEntry_zero : crcEntry 0#8 = 0#16 := by decide

theorem hi8_crcStep (c : Half) (b : Byte) : hi8 (crcStep c b) = hi8 (crcEntry (lo8 c ^^^ b)) := by
  simp [crcStep]

theorem lo8_crcStep (c : Half) (b : Byte) : lo8 (crcStep c b) = hi8 c ^^^ lo8 (crcEntry (lo8 c ^^^ b)) := by
  simp [crcStep]

/-- Equal results of a step come from the same table index. -/
theorem crcStep_index {c d : Half} {a b : Byte} (h : crcStep c a = crcStep d b) : lo8 c ^^^ a = lo8 d ^^^ b :=
  crcEntry_hi8_inj (by rw [← hi8_crcStep, ← hi8_crcStep, h])

theorem crcStep_inj_acc {c d : Half} {b : Byte} (h : crcStep c b = crcStep d b) : c = d := by
  have idx := crcStep_index h
  have low : lo8 c = lo8 d := by simpa [BitVec.xor_left_inj] using idx
  refine half_ext ?_ low
  have := congrArg lo8 h
  rw [lo8_crcStep, lo8_crcStep, idx] at this
  simpa [BitVec.xor_left_inj] using this

theorem crcStep_inj_byte {c : Half} {a b : Byte} (h : crcStep c a = crcStep c b) : a = b := by
  simpa [BitVec.xor_right_inj] using crcStep_index h

theorem foldl_crcStep_inj (l : List Byte) {c d : Half} (h : l.foldl crcStep c = l.foldl crcStep d) : c = d := by
  induction l generalizing c d with
  | nil => exact h
  | cons b l ih => exact crcStep_inj_acc (ih h)

@[simp] theorem checksum_nil : checksum [] = 0xFFFF := rfl

theorem checksum_append (s t : List Byte) : checksum (s ++ t) = t.foldl crcStep (checksum s) := by
  simp [checksum]

/-- Folding the low byte of the accumulator leaves its high byte. -/
theorem crcStep_lo8 (c : Half) : crcStep c (lo8 c) = c >>> 8 := by
  simp [crcStep]

end Sys2Proof.Machine
end

