-- ==== Sys2Proof/Laws/Decode.lean ====
section
/-! SUPPORT. The fields of an encoded word (30_encoding.md R71 to R73), and what each format's check says of a word. -/

namespace Sys2Proof

/-! ### Fields of an encoded word -/

@[simp] theorem opField_wordN (op : Byte) : opField (wordN op) = op := by
  apply BitVec.eq_of_getLsbD_eq; intro i hi
  simp [opField, wordN, BitVec.getLsbD_setWidth, hi]; omega

@[simp] theorem opField_wordB (op imm8 : Byte) : opField (wordB op imm8) = op := by
  apply BitVec.eq_of_getLsbD_eq; intro i hi
  simp only [opField, wordB, BitVec.getLsbD_extractLsb', BitVec.getLsbD_or, BitVec.getLsbD_setWidth,
    BitVec.getLsbD_shiftLeft]
  simp [hi, show i < 32 by omega]

@[simp] theorem opField_wordS (op : Byte) (s : Src) : opField (wordS op s) = op := by
  apply BitVec.eq_of_getLsbD_eq; intro i hi
  simp only [opField, wordS, BitVec.getLsbD_extractLsb', BitVec.getLsbD_or, BitVec.getLsbD_setWidth,
    BitVec.getLsbD_shiftLeft]
  simp [hi, show i < 32 by omega]

@[simp] theorem immField_wordB (op imm8 : Byte) : immField (wordB op imm8) = imm8 := by
  apply BitVec.eq_of_getLsbD_eq; intro i hi
  simp only [immField, wordB, BitVec.getLsbD_extractLsb', BitVec.getLsbD_or, BitVec.getLsbD_setWidth,
    BitVec.getLsbD_shiftLeft]
  simp [hi, show 8 + i < 32 by omega]
  omega

@[simp] theorem srcField_wordS (op : Byte) (s : Src) : srcField (wordS op s) = s := by
  cases s <;> simp [srcField, wordS, Src.bit]

/-! ### The reserved bits of an encoded word -/

theorem reserved_wordN (op : Byte) : (wordN op).extractLsb' 8 24 = 0#24 := by
  apply BitVec.eq_of_getLsbD_eq; intro i hi
  simp [wordN, BitVec.getLsbD_extractLsb', BitVec.getLsbD_setWidth]

theorem reserved_wordB (op imm8 : Byte) : (wordB op imm8).extractLsb' 16 16 = 0#16 := by
  apply BitVec.eq_of_getLsbD_eq; intro i hi
  simp only [wordB, BitVec.getLsbD_extractLsb', BitVec.getLsbD_or, BitVec.getLsbD_setWidth,
    BitVec.getLsbD_shiftLeft, BitVec.getLsbD_zero]
  simp [BitVec.getLsbD_of_ge op (16 + i) (by omega), BitVec.getLsbD_of_ge imm8 (16 + i - 8) (by omega)]

theorem reserved_wordS (op : Byte) (s : Src) : (wordS op s).extractLsb' 9 23 = 0#23 := by
  apply BitVec.eq_of_getLsbD_eq; intro i hi
  simp only [wordS, BitVec.getLsbD_extractLsb', BitVec.getLsbD_or, BitVec.getLsbD_setWidth,
    BitVec.getLsbD_shiftLeft, BitVec.getLsbD_zero]
  simp [BitVec.getLsbD_of_ge op (9 + i) (by omega), BitVec.getLsbD_of_ge s.bit (9 + i - 8) (by omega)]

/-! ### The checks of a format -/

theorem formatN_ok {w : Word} {i j : Instr} : formatN w i = .ok j ↔ w.extractLsb' 8 24 = 0 ∧ j = i := by
  unfold formatN; split <;> simp_all [eq_comm]

theorem formatB_ok {w : Word} {i : Byte → Instr} {j : Instr} :
    formatB w i = .ok j ↔ w.extractLsb' 16 16 = 0 ∧ j = i (immField w) := by
  unfold formatB; split <;> simp_all [eq_comm]

theorem formatS_ok {w : Word} {i : Src → Instr} {j : Instr} :
    formatS w i = .ok j ↔ w.extractLsb' 9 23 = 0 ∧ j = i (srcField w) := by
  unfold formatS; split <;> simp_all [eq_comm]

/-! ### The opcode of a mnemonic -/

/-- The opcode of each mnemonic (R75). -/
def Mnemonic.opcode : Mnemonic → Byte
  | .nop      => 0x00
  | .reset    => 0x01
  | .ibClr    => 0x02
  | .ibPush   => 0x03
  | .obMov    => 0x04
  | .crcInit  => 0x10
  | .crcByte  => 0x11
  | .crcBuf   => 0x12
  | .rtuEnc   => 0x20
  | .rtuDecq  => 0x21
  | .rtuDecr  => 0x22
  | .tcpDec   => 0x30
  | .tcpEnc   => 0x31
  | .tcpSetp  => 0x32
  | .tcpSetps => 0x33
  | .rxPush   => 0x40
  | .rxPop    => 0x41
  | .rxClr    => 0x42

theorem mnemonicOf_opcode (m : Mnemonic) : mnemonicOf m.opcode = some m := by cases m <;> rfl

theorem opcode_of_mnemonicOf_nat : (List.range 256).all (fun n =>
    (mnemonicOf (BitVec.ofNat 8 n)).all (fun m => m.opcode == BitVec.ofNat 8 n)) = true := by decide +kernel

theorem mnemonicOf_eq_some {op : Byte} {m : Mnemonic} : mnemonicOf op = some m ↔ op = m.opcode := by
  constructor
  · intro h
    have := List.all_eq_true.1 opcode_of_mnemonicOf_nat op.toNat (by simpa using op.isLt)
    rw [BitVec.ofNat_toNat, BitVec.setWidth_eq, h] at this
    exact (beq_iff_eq.1 this).symm
  · rintro rfl; exact mnemonicOf_opcode m

/-- What decoding says: the opcode is the mnemonic's, and the reserved bits of its format are clear (R74). -/
theorem decode_ok {w : Word} {i : Instr} : decode w = .ok i ↔ ∃ m, opField w = m.opcode ∧ decodeAs w m = .ok i := by
  unfold decode
  cases h : mnemonicOf (opField w) with
  | none =>
    simp only [reduceCtorEq, false_iff]
    rintro ⟨m, hm, _⟩
    rw [mnemonicOf_eq_some.2 hm] at h; simp at h
  | some m =>
    have hm := mnemonicOf_eq_some.1 h
    constructor
    · intro hd; exact ⟨m, hm, hd⟩
    · rintro ⟨m', hm', hd⟩
      rw [mnemonicOf_eq_some.2 hm'] at h
      cases h; exact hd

/-! ### A word with clear reserved bits is the word of its fields -/

theorem eq_wordN {w : Word} (h : w.extractLsb' 8 24 = 0) : w = wordN (opField w) := by
  apply BitVec.eq_of_getLsbD_eq; intro i hi
  rcases Nat.lt_or_ge i 8 with h8 | h8
  · simp [wordN, opField, BitVec.getLsbD_setWidth, h8]; omega
  · have := congrArg (fun v => v.getLsbD (i - 8)) h
    simp only [BitVec.getLsbD_extractLsb', show i - 8 < 24 by omega, decide_true, Bool.true_and,
      show 8 + (i - 8) = i by omega] at this
    rw [this]; simp [wordN, BitVec.getLsbD_of_ge (opField w) i h8]

theorem eq_wordB {w : Word} (h : w.extractLsb' 16 16 = 0) : w = wordB (opField w) (immField w) := by
  apply BitVec.eq_of_getLsbD_eq; intro i hi
  simp only [wordB, BitVec.getLsbD_or, BitVec.getLsbD_setWidth, BitVec.getLsbD_shiftLeft, hi]
  rcases Nat.lt_or_ge i 8 with h8 | h8
  · simp [opField, h8]
  · rw [BitVec.getLsbD_of_ge (opField w) i h8]
    rcases Nat.lt_or_ge i 16 with h16 | h16
    · simp [immField, Nat.not_lt.2 h8, show 8 + (i - 8) = i by omega, show i - 8 < 8 by omega]; omega
    · have := congrArg (fun v => v.getLsbD (i - 16)) h
      simp only [BitVec.getLsbD_extractLsb', show i - 16 < 16 by omega, decide_true, Bool.true_and,
        show 16 + (i - 16) = i by omega] at this
      rw [this, BitVec.getLsbD_of_ge (immField w) (i - 8) (by omega)]; simp

theorem eq_wordS {w : Word} (h : w.extractLsb' 9 23 = 0) : w = wordS (opField w) (srcField w) := by
  apply BitVec.eq_of_getLsbD_eq; intro i hi
  simp only [wordS, BitVec.getLsbD_or, BitVec.getLsbD_setWidth, BitVec.getLsbD_shiftLeft, hi]
  rcases Nat.lt_or_ge i 8 with h8 | h8
  · simp [opField, h8]
  · rw [BitVec.getLsbD_of_ge (opField w) i h8]
    rcases Nat.eq_or_lt_of_le h8 with rfl | h9
    · unfold srcField
      split <;> simp_all [Src.bit]
    · have := congrArg (fun v => v.getLsbD (i - 9)) h
      simp only [BitVec.getLsbD_extractLsb', show i - 9 < 23 by omega, decide_true, Bool.true_and,
        show 9 + (i - 9) = i by omega] at this
      rw [this, BitVec.getLsbD_of_ge (srcField w).bit (i - 8) (by omega)]; simp

end Sys2Proof
end

