-- ==== Sys2Proof/Laws/Invariant.lean ====
section
/-! SUPPORT. The shared updates keep the states well-formed: the status codes, the three buffer stores, the reset, and
changes on the host's side of the bus. -/

namespace Sys2Proof.Machine

namespace State.Inv

/-- Every capacity fits a length register. -/
theorem caps_fit {s : State} (h : s.Inv) :
    s.params.ibufCap < 262144 ∧ s.params.obufCap < 262144 ∧ s.params.pbufCap < 262144 ∧
      s.params.rxqCap < 262144 := by
  have := h.legal
  omega

theorem setErr {s : State} (h : s.Inv) (e : Err) : (s.setErr e).Inv :=
  ⟨h.legal, h.iblen, h.oblen, h.plen, h.rxlen, h.ibuf, h.obuf, h.pbuf⟩

theorem hostSide {s : State} (h : s.Inv) (p : List HostEvent) (r : Bool) (y : Reply) :
    ({ s with pending := p, resetPin := r, reply := y } : State).Inv :=
  ⟨h.legal, h.iblen, h.oblen, h.plen, h.rxlen, h.ibuf, h.obuf, h.pbuf⟩

theorem storeIbuf {s : State} (h : s.Inv) {d : List Byte} (hd : d.length ≤ s.params.ibufCap) :
    (s.storeIbuf d).Inv := by
  have := h.caps_fit
  have len : (s.storeIbuf d).iblen.toNat = d.length := toNat_len18 (by omega)
  exact ⟨h.legal, len.trans_le hd, h.oblen, h.plen, h.rxlen,
    ⟨Memory.wf_store h.ibuf.1 d, Memory.within_store h.ibuf.2 hd⟩, h.obuf, h.pbuf⟩

theorem storeObuf {s : State} (h : s.Inv) {d : List Byte} (hd : d.length ≤ s.params.obufCap) :
    (s.storeObuf d).Inv := by
  have := h.caps_fit
  have len : (s.storeObuf d).oblen.toNat = d.length := toNat_len18 (by omega)
  exact ⟨h.legal, h.iblen, len.trans_le hd, h.plen, h.rxlen, h.ibuf,
    ⟨Memory.wf_store h.obuf.1 d, Memory.within_store h.obuf.2 hd⟩, h.pbuf⟩

theorem storePbuf {s : State} (h : s.Inv) {d : List Byte} (hd : d.length ≤ s.params.pbufCap) :
    (s.storePbuf d).Inv := by
  have := h.caps_fit
  have len : (s.storePbuf d).plen.toNat = d.length := toNat_len18 (by omega)
  exact ⟨h.legal, h.iblen, h.oblen, len.trans_le hd, h.rxlen, h.ibuf, h.obuf,
    ⟨Memory.wf_store h.pbuf.1 d, Memory.within_store h.pbuf.2 hd⟩⟩

theorem applyReset {s : State} (h : s.Inv) : s.applyReset.Inv :=
  ⟨h.legal, Nat.zero_le _, Nat.zero_le _, Nat.zero_le _, Nat.zero_le _,
    ⟨Memory.wf_nil, fun _ hc => nomatch hc⟩, ⟨Memory.wf_nil, fun _ hc => nomatch hc⟩,
    ⟨Memory.wf_nil, fun _ hc => nomatch hc⟩⟩

end State.Inv

end Sys2Proof.Machine
end

