-- ==== Sys2Proof/Laws/PerInstr.lean ====
section
/-! SUPPORT. The family `EncodesRow`, instruction by instruction: the word of a command matches its own row of the opcode
map (30_encoding.md R74, R75). -/

namespace Sys2Proof.Laws.EncodesRow

/-- Some row of the opcode map has the command's mnemonic, and the command's word matches it under the row's mask. -/
def Statement (i : Instr) : Prop :=
  ∃ r ∈ opcodeTable, r.mnemonic = i.mnemonic ∧ r.matches (encode i) = true

theorem nop : Statement .nop := by unfold Statement; decide
theorem reset : Statement .reset := by unfold Statement; decide
theorem ibClr : Statement .ibClr := by unfold Statement; decide
theorem obMov : Statement .obMov := by unfold Statement; decide
theorem crcInit : Statement .crcInit := by unfold Statement; decide
theorem crcBuf : Statement .crcBuf := by unfold Statement; decide
theorem rtuEnc : Statement .rtuEnc := by unfold Statement; decide
theorem rtuDecq : Statement .rtuDecq := by unfold Statement; decide
theorem rtuDecr : Statement .rtuDecr := by unfold Statement; decide
theorem tcpDec : Statement .tcpDec := by unfold Statement; decide
theorem tcpEnc : Statement .tcpEnc := by unfold Statement; decide
theorem rxPush : Statement .rxPush := by unfold Statement; decide
theorem rxPop : Statement .rxPop := by unfold Statement; decide
theorem rxClr : Statement .rxClr := by unfold Statement; decide

theorem tcpSetp (s : Src) : Statement (.tcpSetp s) := by unfold Statement; cases s <;> decide
theorem tcpSetps (s : Src) : Statement (.tcpSetps s) := by unfold Statement; cases s <;> decide

/-- A word of format B, under the mask of format B, is its opcode (R72). -/
theorem wordB_masked (op imm8 : Byte) : wordB op imm8 &&& 0xFFFF00FF = op.setWidth 32 := by
  apply BitVec.eq_of_getLsbD_eq
  intro i hi
  rcases Nat.lt_or_ge i 16 with h | h
  · interval_cases i <;> simp [wordB]
  · simp only [wordB, BitVec.getLsbD_and, BitVec.getLsbD_or, BitVec.getLsbD_setWidth, BitVec.getLsbD_shiftLeft,
      BitVec.getLsbD_of_ge op i (by omega), BitVec.getLsbD_of_ge imm8 (i - 8) (by omega)]
    simp

theorem ibPush (imm8 : Byte) : Statement (.ibPush imm8) :=
  ⟨⟨.ibPush, .b, 0x00000003, 0xFFFF00FF⟩, by decide, rfl, by
    show (wordB 0x03 imm8 &&& 0xFFFF00FF == 0x00000003) = true
    rw [wordB_masked]; decide⟩

theorem crcByte (imm8 : Byte) : Statement (.crcByte imm8) :=
  ⟨⟨.crcByte, .b, 0x00000011, 0xFFFF00FF⟩, by decide, rfl, by
    show (wordB 0x11 imm8 &&& 0xFFFF00FF == 0x00000011) = true
    rw [wordB_masked]; decide⟩

end Sys2Proof.Laws.EncodesRow
end

