-- ==== Sys2Proof/Tests/Slice0.lean ====
section
/-! SUPPORT. Tests. Every expected value is a vector or a worked example of 95_test_vectors.md, named beside it, or is
read off the rule named beside it. The witnesses at the end meet the hypotheses of the statements. -/

namespace Sys2Proof.Tests

open Sys2Proof.Machine

/-- The result is a next state with this property. -/
def ends (r : Result) (p : State → Bool) : Bool :=
  match r with
  | .next t    => p t
  | .fault _   => false
  | .refused _ => false

/-- The state after reset with these bytes loaded (IB.LOAD, R79). -/
def load (bs : List Byte) : State := State.reset.storeIbuf bs

/-- The state after reset with an address, a function and a payload. -/
def frame (address function : Byte) (payload : List Byte) : State :=
  (State.reset.setFrame address function).storePbuf payload

/-- The state after reset with one event issued by the host. -/
def issued (s : State) (e : HostEvent) : State := { s with pending := [e] }

/-- The smallest legal capacities (R6). -/
def smallest : Config.Params := { ibufCap := 65541, obufCap := 65541, pbufCap := 65533, rxqCap := 65541 }

/-- The RTU fixture frame (part L1-1). -/
def fixture : List Byte := [0x01, 0x06, 0x00, 0x01, 0x01, 0x00, 0xD9, 0x9A]

/-- The TCP frames f1 and f2 of part L2-RX. -/
def f1 : List Byte := [0x00, 0x01, 0x00, 0x00, 0x00, 0x06, 0x01, 0x03, 0x00, 0x00, 0x00, 0x0A]
def f2 : List Byte := [0x00, 0x02, 0x00, 0x00, 0x00, 0x06, 0x01, 0x06, 0x00, 0x01, 0x01, 0x00]

/-! ### WellFormed: each check refuses an ill-formed statement (R78) -/

theorem test_wf_refuses_imm_256 : (Asm.Line.op .ibPush (some 256)).wf = false := by decide
theorem test_wf_refuses_src_2 : (Asm.Line.op .tcpSetp (some 2)).wf = false := by decide
theorem test_wf_refuses_missing_imm : (Asm.Line.op .crcByte none).wf = false := by decide
theorem test_wf_refuses_missing_src : (Asm.Line.op .tcpSetps none).wf = false := by decide
theorem test_wf_refuses_extra_operand : (Asm.Line.op .nop (some 0)).wf = false := by decide
theorem test_wf_refuses_wide_write : (Asm.Line.wr .crc 0x100000000).wf = false := by decide
theorem test_wf_refuses_wide_byte : (Asm.Line.sb .ibuf 0 256).wf = false := by decide
theorem test_wf_refuses_store_address : (Asm.Line.sb .pbuf 0xA0000 0).wf = false := by decide
theorem test_wf_refuses_load_address : (Asm.Line.lb .rxq 0x80000).wf = false := by decide
theorem test_wf_refuses_ibLoad_byte : (Asm.Line.ibLoad [1, 256]).wf = false := by decide
theorem test_wf_refuses_pbLoad_byte : (Asm.Line.pbLoad [256]).wf = false := by decide
theorem test_wf_refuses_crcOf_byte : (Asm.Line.crcOf [0, 300]).wf = false := by decide
theorem test_wf_refuses_cmd_word : (Asm.Line.cmd 0x100000000).wf = false := by decide
theorem test_wf_accepts : [Asm.Line.op .ibPush (some 255), .op .tcpSetps (some 1), .op .rxPop none, .wr .iblen 5, .rd .crc,
    .sb .obuf 0 0x11, .lb .rxq 2, .ibLoad [], .cmd 0xFF].all Asm.Line.wf = true := by decide

/-! ### Decoding: every command's word, written out bit by bit from R71 to R73 and R75 -/

theorem test_decode_control :
    decode 0b00000000000000000000000000000000 = .ok .nop ∧
    decode 0b00000000000000000000000000000001 = .ok .reset ∧
    decode 0b00000000000000000000000000000010 = .ok .ibClr ∧
    decode 0b00000000000000000000011000000011 = .ok (.ibPush 0x06) ∧
    decode 0b00000000000000000000000000000100 = .ok .obMov := by decide

theorem test_decode_crc :
    decode 0b00000000000000000000000000010000 = .ok .crcInit ∧
    decode 0b00000000000000001001101000010001 = .ok (.crcByte 0x9A) ∧
    decode 0b00000000000000000000000000010010 = .ok .crcBuf := by decide

theorem test_decode_rtu :
    decode 0b00000000000000000000000000100000 = .ok .rtuEnc ∧
    decode 0b00000000000000000000000000100001 = .ok .rtuDecq ∧
    decode 0b00000000000000000000000000100010 = .ok .rtuDecr := by decide

theorem test_decode_tcp :
    decode 0b00000000000000000000000000110000 = .ok .tcpDec ∧
    decode 0b00000000000000000000000000110001 = .ok .tcpEnc ∧
    decode 0b00000000000000000000000000110010 = .ok (.tcpSetp .payload) ∧
    decode 0b00000000000000000000000100110010 = .ok (.tcpSetp .input) ∧
    decode 0b00000000000000000000000000110011 = .ok (.tcpSetps .payload) ∧
    decode 0b00000000000000000000000100110011 = .ok (.tcpSetps .input) := by decide

theorem test_decode_stream :
    decode 0b00000000000000000000000001000000 = .ok .rxPush ∧
    decode 0b00000000000000000000000001000001 = .ok .rxPop ∧
    decode 0b00000000000000000000000001000010 = .ok .rxClr := by decide

/-- Part L2-DEC, each word rejected by the name of its reason. -/
theorem test_decode_rejects :
    decode 0x000000FF = .error (.unlistedOpcode 0xFF) ∧ decode 0x00000013 = .error (.unlistedOpcode 0x13) ∧
    decode 0x00000100 = .error (.reservedBits 0x00) ∧ decode 0x00010011 = .error (.reservedBits 0x11) ∧
    decode 0x00000232 = .error (.reservedBits 0x32) ∧ decode 0x00020133 = .error (.reservedBits 0x33) ∧
    decode 0x80000000 = .error (.reservedBits 0x00) := by decide

/-- The words of the table are read with every bit above them 0 (R70, R75). -/
theorem test_decodeTableWord :
    decodeTableWord 32 0x00000133 = some (.tcpSetps .input) ∧ decodeTableWord 8 0x03 = some (.ibPush 0) := by decide

/-- L2-CRC-4 as the first step after reset. -/
theorem test_withFetchWord : ends (step (State.reset.withFetchWord 32 0x00000111)) (fun t => t.crc == 0x807E) = true := by
  decide

/-! ### Control and buffer commands (part L2-CTL) -/

/-- L2-CTL-1. -/
theorem test_nop_clears_err :
    ends (exec .nop { load [7] with err := .crc, crc := 0x1234 })
      (fun t => t == { load [7] with err := .ok, crc := 0x1234 }) = true := by decide

/-- L2-CTL-2. -/
theorem test_reset :
    ends (exec .reset { load [7] with crc := 0x1234, plen := 9, rxq := [1, 2, 3], berr := true })
      (fun t => t == State.reset) = true := by decide

/-- L2-CTL-3, first half. -/
theorem test_ibClr_keeps_bytes :
    ends (exec .ibClr (load [1, 2, 3])) (fun t => t.iblen == 0 && t.ibuf.seq 3 == [1, 2, 3]) = true := by decide

/-- L2-CTL-3, second half. -/
theorem test_ibPush_writes_one_byte :
    ends (exec (.ibPush 9) { load [1, 2, 3] with iblen := 0 })
      (fun t => t.iblen == 1 && t.ibuf.seq 3 == [9, 2, 3]) = true := by decide

/-- L2-CTL-4. -/
theorem test_ibPush_full :
    ends (exec (.ibPush 3) { State.reset with params := smallest, iblen := 65541 })
      (fun t => t.err == .overflow && t.iblen == 65541) = true := by decide

/-- L2-CTL-5. -/
theorem test_obMov :
    ends (exec .obMov (State.reset.storeObuf fixture)) (fun t => t.ibSeq == fixture && t.obSeq == fixture) = true := by
  decide

/-- L2-CTL-6. -/
theorem test_obMov_too_long :
    ends (exec .obMov { State.reset with params := { smallest with obufCap := 131072 }, oblen := 65542 })
      (fun t => t.err == .overflow && t.iblen == 0) = true := by decide

/-! ### CRC commands (parts L1-1 and L2-CRC) -/

/-- L2-CRC-14 and two entries of the trace of L1-1. -/
theorem test_crcTable :
    crcTable.length = 256 ∧ crcTable[0x00]? = some 0x0000 ∧ crcTable[0x01]? = some 0xC0C1 ∧
    crcTable[0x80]? = some 0xA001 ∧ crcTable[0xFF]? = some 0x4040 ∧ crcTable[0x78]? = some 0x2200 ∧
    crcTable[0xD9]? = some 0x9AC1 := by decide +kernel

/-- L2-CRC-10. -/
theorem test_crcInit : ends (exec .crcInit { State.reset with crc := 0x1234 }) (fun t => t.crc == 0xFFFF) = true := by
  decide

/-- L2-CRC-8. -/
theorem test_crcByte :
    ends (exec (.crcByte 0x56) { State.reset with crc := 0x1234 }) (fun t => t.crc == 0xE993) = true ∧
    ends (exec (.crcByte 0x01) { State.reset with crc := 0 }) (fun t => t.crc == 0xC0C1) = true := by decide

/-- L2-CRC-11, the fixture of L1-1. -/
theorem test_crcBuf_fixture :
    ends (exec .crcBuf { load (fixture.take 6) with crc := 0x1234 }) (fun t => t.crc == 0x9AD9) = true := by
  decide

/-- L2-CRC-5. -/
theorem test_crcBuf_check_value :
    ends (exec .crcBuf (load [0x31, 0x32, 0x33, 0x34, 0x35, 0x36, 0x37, 0x38, 0x39]))
      (fun t => t.crc == 0x4B37) = true := by decide

/-! ### RTU codec (part L2-RTU) -/

/-- L2-RTU-1. -/
theorem test_rtuEnc_fixture :
    ends (exec .rtuEnc (frame 0x01 0x06 [0x00, 0x01, 0x01, 0x00])) (fun t => t.obSeq == fixture) = true := by
  decide

/-- L2-RTU-6. -/
theorem test_rtuEnc_empty_payload :
    ends (exec .rtuEnc (frame 0x01 0x03 [])) (fun t => t.obSeq == [0x01, 0x03, 0x40, 0x21]) = true := by
  decide

/-- L2-RTU-2. -/
theorem test_rtuDecq_fixture :
    ends (exec .rtuDecq (load fixture))
      (fun t => t.addr == 0x01 && t.fn == 0x06 && t.pbSeq == [0x00, 0x01, 0x01, 0x00] && t.size == 0) = true := by
  decide

/-- L2-RTU-7. -/
theorem test_rtuDecq_short :
    ends (exec .rtuDecq (load [0x01, 0x03, 0x40, 0x21])) (fun t => t.err == .short && t.fe) = true := by
  decide

/-- L2-RTU-13: the size byte is not validated. -/
theorem test_rtuDecr_size :
    ends (exec .rtuDecr (load [0x01, 0x03, 0x09, 0x00, 0x2A, 0x48, 0x59]))
      (fun t => t.size == 0x09 && t.pbSeq == [0x00, 0x2A] && t.fn == 0x03 && t.err == .ok) = true := by
  decide

/-- L2-RTU-5. -/
theorem test_rtuDecr_swapped_crc :
    ends (exec .rtuDecr (load [0x01, 0x06, 0x00, 0x01, 0x01, 0x00, 0x9A, 0xD9]))
      (fun t => t.err == .crc && t.plen == 0 && t.addr == 0) = true := by decide

/-! ### TCP codec (part L2-TCP) -/

/-- L2-TCP-5, first half: protocolId is not checked. -/
theorem test_tcpDec :
    ends (exec .tcpDec (load [0x00, 0x07, 0xAB, 0xCD, 0x00, 0x03, 0x05, 0x06, 0x77]))
      (fun t => t.tid == 0x0007 && t.pid == 0xABCD && t.tlen == 3 && t.addr == 5 && t.fn == 6 && t.pbSeq == [0x77])
      = true := by decide

/-- L2-TCP-6. -/
theorem test_tcpDec_length :
    ends (exec .tcpDec (load [0, 0, 0, 0, 0, 0, 0, 0])) (fun t => t.err == .length && t.fe) = true := by decide

/-- L2-TCP-9, second half. -/
theorem test_tcpEnc :
    ends (exec .tcpEnc { frame 0x11 0x01 [3, 1, 2, 3] with tid := 0xBEEF })
      (fun t => t.obSeq == [0xBE, 0xEF, 0, 0, 0, 6, 0x11, 1, 3, 1, 2, 3] && t.tlen == 6) = true := by decide

/-- L2-TCP-17. -/
theorem test_tcpEnc_too_long :
    ends (exec .tcpEnc { State.reset with plen := 65534, tlen := 9 })
      (fun t => t.err == .overflow && t.oblen == 0 && t.tlen == 9) = true := by decide

/-- L2-TCP-10. -/
theorem test_tcpSetp_input :
    ends (exec (.tcpSetp .input) (load [0xAA, 0xBB])) (fun t => t.pbSeq == [0xAA, 0xBB]) = true := by decide

/-- L2-TCP-12. -/
theorem test_tcpSetp_payload :
    ends (exec (.tcpSetp .payload) (frame 0 0 [0xAA, 0xBB]))
      (fun t => t.pbSeq == [0xAA, 0xBB] && t.err == .ok) = true := by decide

/-- L2-TCP-11: with S = 0 the payload moves up one byte. -/
theorem test_tcpSetps_payload :
    ends (exec (.tcpSetps .payload) (frame 0 0 [0xAA, 0xBB])) (fun t => t.pbSeq == [2, 0xAA, 0xBB]) = true := by
  decide

/-- L2-TCP-15. -/
theorem test_tcpSetps_too_long :
    ends (exec (.tcpSetps .input) { State.reset with iblen := 256 })
      (fun t => t.err == .overflow && t.plen == 0) = true := by decide +kernel

/-! ### Stream (part L2-RX) -/

/-- L2-RX-1. -/
theorem test_rxPush :
    ends (exec .rxPush (load (f1 ++ f2 ++ [0, 3, 0, 0]))) (fun t => t.rxq.length == 28 && t.rxav) = true := by
  decide

/-- L2-RX-8. -/
theorem test_rxPush_partial :
    ends (exec .rxPush (load [0, 1, 0, 0, 0])) (fun t => t.rxq.length == 5 && !t.rxav) = true := by decide

/-- L2-RX-3. -/
theorem test_rxPop :
    ends (exec .rxPop { State.reset with rxq := f2 ++ [0, 3, 0, 0] })
      (fun t => t.ibSeq == f2 && t.rxq == [0, 3, 0, 0] && !t.rxav) = true := by decide

/-- L2-RX-4. -/
theorem test_rxPop_no_frame :
    ends (exec .rxPop { load f2 with rxq := [0, 3, 0, 0] })
      (fun t => t.err == .noFrame && t.ibSeq == f2 && t.rxq == [0, 3, 0, 0]) = true := by decide

/-- L2-RX-10. -/
theorem test_rxClr :
    ends (exec .rxClr { load [1, 2, 3, 4] with rxq := [1, 2, 3, 4] })
      (fun t => t.rxq == [] && t.ibSeq == [1, 2, 3, 4]) = true := by decide

/-! ### Host accesses (part L2-HOST) -/

/-- L2-HOST-1, L2-HOST-2. -/
theorem test_read_id_and_cmd :
    ends (step (issued State.reset (.access (.read4 0x00000)))) (fun t => t.reply == .word 0x4D420100) = true ∧
    ends (step (issued State.reset (.access (.read4 0x00004)))) (fun t => t.reply == .word 0) = true := by decide

/-- L2-HOST-3, L2-HOST-4, L2-HOST-5. -/
theorem test_bus_errors_in_registers :
    ends (step (issued State.reset (.access (.read4 0x00038)))) (fun t => t.reply == .word 0 && t.berr) = true ∧
    ends (step (issued State.reset (.access (.read4 0x00003)))) (fun t => t.reply == .word 0 && t.berr) = true ∧
    ends (step (issued State.reset (.access (.read1 0x0000C)))) (fun t => t.reply == .byte 0 && t.berr) = true := by
  decide

/-- L2-HOST-6, L2-HOST-7, L2-HOST-13, L2-HOST-14. -/
theorem test_bus_errors_in_windows :
    ends (step (issued State.reset (.access (.write4 0x20000 1)))) (fun t => t.berr && t.ibuf.byteAt 0 == 0) = true ∧
    ends (step (issued State.reset (.access (.write1 0x40000 0x11)))) (fun t => t.berr && t.obuf.byteAt 0 == 0) = true ∧
    ends (step (issued { State.reset with params := smallest } (.access (.read1 (0x20000 + 65541)))))
      (fun t => t.berr && t.reply == .byte 0) = true ∧
    ends (step (issued State.reset (.access (.read1 0xA0000)))) (fun t => t.berr) = true := by decide

/-- L2-HOST-8. -/
theorem test_write_iblen :
    ends (step (issued State.reset (.access (.write4 0x00010 131073)))) (fun t => t.iblen == 0 && !t.berr) = true ∧
    ends (step (issued State.reset (.access (.write4 0x00010 131072)))) (fun t => t.iblen == 131072) = true := by decide

/-- L2-HOST-11: a byte write to CMD runs no command. -/
theorem test_byte_write_to_cmd :
    ends (step (issued { State.reset with err := .crc } (.access (.write1 0x00004 0x12))))
      (fun t => t.berr && t.err == .crc && t.crc == 0xFFFF) = true := by decide

/-- L2-HOST-12, the last two of its reads. -/
theorem test_read_rxq :
    ends (step (issued { State.reset with rxq := [1, 2] } (.access (.read1 0x80001)))) (fun t => t.reply == .byte 2) = true ∧
    ends (step (issued { State.reset with rxq := [1, 2] } (.access (.read1 0x80002))))
      (fun t => t.reply == .byte 0 && !t.berr) = true := by decide

/-- L2-HOST-16 and program P5's clearing of BERR. -/
theorem test_status :
    ends (step (issued { State.reset with err := .crc, rxq := f1, berr := true } (.access (.read4 0x00008))))
      (fun t => t.reply == .word 0x00010112) = true ∧
    ends (step (issued { State.reset with err := .illegal, berr := true } (.access (.write4 0x00008 0x00010000))))
      (fun t => !t.berr && t.err == .illegal) = true := by decide

/-- The numbers of the table of R200, read from STATUS in each state of ERR. -/
theorem test_status_codes :
    [Err.ok, .short, .crc, .length, .overflow, .noFrame, .illegal].map
      (fun e => ({ State.reset with err := e } : State).statusWord) =
    [0x00000000, 0x00000011, 0x00000012, 0x00000013, 0x00000004, 0x00000005, 0x00000006] := by decide

/-! ### Witnesses: the hypotheses of the statements can be met, clause by clause, at the edges of their ranges -/

/-- The well-formedness of a concrete state, as one decidable question. -/
theorem inv_of {s : State}
    (h : s.params.Legal ∧ (s.iblen.toNat ≤ s.params.ibufCap ∧ s.oblen.toNat ≤ s.params.obufCap ∧
      s.plen.toNat ≤ s.params.pbufCap ∧ s.rxq.length ≤ s.params.rxqCap) ∧
      (s.ibuf.wf ∧ s.ibuf.within s.params.ibufCap) ∧ (s.obuf.wf ∧ s.obuf.within s.params.obufCap) ∧
      (s.pbuf.wf ∧ s.pbuf.within s.params.pbufCap)) : s.Inv :=
  ⟨h.1, h.2.1.1, h.2.1.2.1, h.2.1.2.2.1, h.2.1.2.2.2, h.2.2.1, h.2.2.2.1, h.2.2.2.2⟩

theorem witness_reset_inv : State.reset.Inv ∧ State.reset.resetPin = false := ⟨inv_of (by decide), rfl⟩

/-- Every buffer full at the default capacities. -/
def full : State := { frame 1 3 [9] with iblen := 131072, oblen := 131072, plen := 131072 }

theorem witness_full_inv : full.Inv ∧ full.resetPin = false := ⟨inv_of (by decide), rfl⟩

theorem witness_EncodeOfDecodeIsTheWord : decode 0x00000103 = .ok (.ibPush 1) := by decide

theorem witness_MatchAndMask : ∀ r ∈ opcodeTable, r.matches 0x00000100 = false := by decide

/-- The first and the last opcode of each unassigned range, and a reserved bit of each format. -/
theorem witness_ReservedEncodings :
    ∀ w ∈ ([0x05, 0x0F, 0x13, 0x1F, 0x23, 0x2F, 0x34, 0x3F, 0x43, 0xFF, 0x00010003, 0x80000011, 0x00000232,
        0x80000133, 0x00000100, 0x80000042] : List Word),
      let op := (w.extractLsb' 0 8).toNat
      (0x05 ≤ op ∧ op ≤ 0x0F) ∨ (0x13 ≤ op ∧ op ≤ 0x1F) ∨ (0x23 ≤ op ∧ op ≤ 0x2F) ∨
      (0x34 ≤ op ∧ op ≤ 0x3F) ∨ 0x43 ≤ op ∨
      ((op = 0x03 ∨ op = 0x11) ∧ w.extractLsb' 16 16 ≠ 0) ∨
      ((op = 0x32 ∨ op = 0x33) ∧ w.extractLsb' 9 23 ≠ 0) ∨
      (op ∉ [0x03, 0x11, 0x32, 0x33] ∧ w.extractLsb' 8 24 ≠ 0) := by
  intro w hw
  simp only [List.mem_cons, List.not_mem_nil, or_false] at hw
  rcases hw with h | h | h | h | h | h | h | h | h | h | h | h | h | h | h | h <;> subst h <;> decide

theorem witness_WriteToCmd : State.reset.resetPin = false ∧ decode 0x00000041 = .ok .rxPop ∧
    decode 0x000000FF = .error (.unlistedOpcode 0xFF) := by decide

theorem witness_NopAndClearing : (0x00000100 : Word).extractLsb' 0 8 = 0 ∧ (0x00000100 : Word) ≠ 0 := by decide

/-- IBLEN at the capacity, and one below it. -/
theorem witness_IbPush : full.Inv ∧ full.iblen.toNat = full.params.ibufCap ∧
    { full with iblen := 131071 }.Inv ∧ ({ full with iblen := 131071 } : State).iblen.toNat ≠ full.params.ibufCap :=
  ⟨inv_of (by decide), by decide, inv_of (by decide), by decide⟩

/-- OBLEN one above the capacity of the input buffer, and at it. -/
theorem witness_ObMov :
    let s := { State.reset with params := { smallest with obufCap := 131072 }, oblen := 65542 }
    s.params.ibufCap < s.oblen.toNat ∧ ({ s with oblen := 65541 } : State).oblen.toNat ≤ s.params.ibufCap := by decide

theorem witness_CrcBuf : State.reset.iblen = 0 ∧
    (load fixture).ibSeq = fixture.take 6 ++ [lo8 (checksum (fixture.take 6)), hi8 (checksum (fixture.take 6))] := by
  decide +kernel

/-- The frame one byte longer than the output buffer, and of its length. -/
theorem witness_RtuEnc :
    let s := { State.reset with params := { smallest with pbufCap := 131072 }, plen := 65538 }
    s.params.Legal ∧ s.params.obufCap < s.plen.toNat + 4 ∧
      ({ s with plen := 65537 } : State).plen.toNat + 4 ≤ s.params.obufCap := by decide

/-- A frame of 5 bytes whose CRC is right (L2-RTU-10). -/
def five : State := load [0x01, 0x03, 0x00, 0x20, 0xF0]

/-- The trailing bytes are not the CRC. -/
def badCrc (s : State) : Prop :=
  checksum (s.ibSeq.take (s.iblen.toNat - 2)) ≠ be16 (byteOf s.ibSeq (s.iblen.toNat - 1)) (byteOf s.ibSeq (s.iblen.toNat - 2))

/-- 4 and 5 bytes, the CRC wrong and right, and a payload buffer one byte too small and just large enough. -/
theorem witness_RtuDecq : (load [1, 3, 0x40, 0x21]).iblen.toNat < 5 ∧
    (5 ≤ (load [1, 3, 0, 0xF0, 0x20]).iblen.toNat ∧ badCrc (load [1, 3, 0, 0xF0, 0x20])) ∧
    (let s := { five with params := { smallest with pbufCap := 0 } }
     5 ≤ s.iblen.toNat ∧ ¬badCrc s ∧ s.params.pbufCap < s.iblen.toNat - 4) ∧
    (let s := { five with params := { smallest with pbufCap := 1 } }
     5 ≤ s.iblen.toNat ∧ ¬badCrc s ∧ s.iblen.toNat - 4 ≤ s.params.pbufCap) := by unfold badCrc; decide +kernel

theorem witness_RtuDecr :
    (let s := { load [1, 3, 2, 0, 0x2A, 0x39, 0x9B] with params := { smallest with pbufCap := 1 } }
     5 ≤ s.iblen.toNat ∧ ¬badCrc s ∧ s.params.pbufCap < s.iblen.toNat - 5) ∧
    (let s := { five with params := { smallest with pbufCap := 0 } }
     5 ≤ s.iblen.toNat ∧ ¬badCrc s ∧ s.iblen.toNat - 5 ≤ s.params.pbufCap) := by unfold badCrc; decide +kernel

/-- No payload, one byte, and the longest that fits both buffers. -/
theorem witness_RtuRoundTrip : ∀ n ∈ ([0, 1, 131068] : List Len), ({ frame 1 6 [7] with plen := n } : State).Inv ∧
    n.toNat + 4 ≤ State.reset.params.obufCap := by
  intro n hn
  simp only [List.mem_cons, List.not_mem_nil, or_false] at hn
  rcases hn with rfl | rfl | rfl <;> exact ⟨inv_of (by decide), by decide⟩

/-- The first byte and the last byte of the fixture frame. -/
theorem witness_OneChangedByte : 5 ≤ (load fixture).iblen.toNat ∧ 7 < (load fixture).iblen.toNat ∧
    crcGood (load fixture).ibSeq = true ∧ (0x00 : Byte) ≠ (load fixture).ibuf.byteAt 0 ∧
    (0x9B : Byte) ≠ (load fixture).ibuf.byteAt 7 := by decide +kernel

/-- L2-TCP-2, L2-TCP-6 and L2-TCP-4. -/
theorem witness_TcpDec :
    (load [0, 1, 0, 0, 0, 6, 1]).iblen.toNat < 8 ∧
    (let s := load [0, 0, 0, 0, 0, 0, 0, 0]
     8 ≤ s.iblen.toNat ∧ s.iblen.toNat ≠ (be16 (s.ibuf.byteAt 4) (s.ibuf.byteAt 5)).toNat + 6) ∧
    (let s := load [0x12, 0x34, 0, 0, 0, 2, 0x11, 0x2B]
     8 ≤ s.iblen.toNat ∧ s.iblen.toNat = (be16 (s.ibuf.byteAt 4) (s.ibuf.byteAt 5)).toNat + 6) := by decide

/-- L2-TCP-17, L2-TCP-16, and an output buffer one byte too small. -/
theorem witness_TcpEnc :
    (let s := { State.reset with params := smallest, plen := 65534 }
     65533 < s.plen.toNat ∨ s.params.obufCap < s.plen.toNat + 8) ∧
    (let s := { State.reset with params := smallest, plen := 65533 }
     s.plen.toNat ≤ 65533 ∧ s.plen.toNat + 8 ≤ s.params.obufCap) ∧
    (let s := { State.reset with params := { smallest with obufCap := 7 } }
     65533 < s.plen.toNat ∨ s.params.obufCap < s.plen.toNat + 8) := by decide

/-- Data one byte longer than the payload buffer, and of its length. -/
theorem witness_TcpSetp :
    let s := { State.reset with params := { smallest with ibufCap := 131072 }, iblen := 65534 }
    (s.Inv ∧ s.params.pbufCap < s.iblen.toNat) ∧ ({ s with iblen := 65533 } : State).Inv ∧
      ({ s with iblen := 65533 } : State).iblen.toNat ≤ s.params.pbufCap :=
  ⟨⟨inv_of (by decide), by decide⟩, inv_of (by decide), by decide⟩

/-- L2-TCP-15, L2-TCP-14, and a payload buffer one byte too small. -/
theorem witness_TcpSetps :
    (let s := { State.reset with params := smallest, iblen := 256 }
     255 < s.iblen.toNat ∨ s.params.pbufCap < s.iblen.toNat + 1) ∧
    (let s := { State.reset with params := smallest, iblen := 255 }
     s.iblen.toNat ≤ 255 ∧ s.iblen.toNat + 1 ≤ s.params.pbufCap) ∧
    (let s := { State.reset with params := { smallest with pbufCap := 0 } }
     255 < s.plen.toNat ∨ s.params.pbufCap < s.plen.toNat + 1) := by decide

/-- L2-TCP-5 is accepted; L2-TCP-6 has a wrong length field. -/
theorem witness_TcpRoundTrip : State.reset.params.Legal ∧
    ends (exec .tcpDec (load [0, 7, 0xAB, 0xCD, 0, 3, 5, 6, 0x77])) (fun u => decide (u.err = .ok)) = true ∧
    (8 ≤ (load [0, 0, 0, 0, 0, 0, 0, 0]).iblen.toNat ∧
      (load [0, 0, 0, 0, 0, 0, 0, 0]).iblen.toNat ≠ flen (load [0, 0, 0, 0, 0, 0, 0, 0]).ibSeq) := by decide

/-- The queue one byte too full, and just large enough. -/
theorem witness_RxPush :
    let s := { State.reset with rxq := [1, 2], iblen := 131071 }
    s.params.rxqCap < s.rxq.length + s.iblen.toNat ∧
      s.rxq.length + ({ s with iblen := 131070 } : State).iblen.toNat ≤ s.params.rxqCap := by decide

/-- 5 bytes; a frame one byte short; a whole frame; and an input buffer one byte too small for it. -/
theorem witness_RxPop :
    (f1.take 5).length < 6 ∧ (6 ≤ (f1.take 11).length ∧ (f1.take 11).length < flen (f1.take 11)) ∧
    (let s := { State.reset with rxq := f1, params := smallest }
     6 ≤ s.rxq.length ∧ flen s.rxq ≤ s.rxq.length ∧ flen s.rxq ≤ s.params.ibufCap) ∧
    (let s := { State.reset with rxq := f1, params := { smallest with ibufCap := 11 } }
     6 ≤ s.rxq.length ∧ flen s.rxq ≤ s.rxq.length ∧ s.params.ibufCap < flen s.rxq) := by decide

/-- The two frames and the rest of program P4, in its two pushes. -/
theorem witness_StreamIsCut :
    State.reset.params.Legal ∧ State.reset.rxq = [] ∧ (∀ f ∈ [f1, f2], wholeFrame f) ∧ avail [0, 3, 0, 0] = false ∧
    [f1.take 11, f1.drop 11 ++ f2 ++ [0, 3, 0, 0]].flatten = [f1, f2].flatten ++ [0, 3, 0, 0] ∧
    (∀ c ∈ [f1.take 11, f1.drop 11 ++ f2 ++ [0, 3, 0, 0]], c.length ≤ State.reset.params.ibufCap) ∧
    ([f1, f2].flatten ++ [0, 3, 0, 0]).length ≤ State.reset.params.rxqCap ∧
    (∃ t, exec .tcpDec (load [0, 0, 0, 0, 0, 0, 0, 0]) = .next t) := by
  unfold wholeFrame
  exact ⟨by decide, rfl, by decide, by decide, by decide, by decide, by decide, _, rfl⟩

theorem witness_FailedCommand : ∃ t, runCommand 0x000000FF State.reset = .next t ∧ t.err ≠ .ok :=
  ⟨_, rfl, by decide⟩

/-- A command outside every list, so that each clause applies. -/
theorem witness_OnlyListedCommands : ∃ t, exec .nop full = .next t ∧ Instr.nop ≠ .reset ∧
    Instr.nop.mnemonic ∉ [.crcInit, .crcByte, .crcBuf, .reset] := ⟨_, rfl, by decide, by decide⟩

theorem witness_StepKeepsWellFormed :
    (issued full (cmdWrite 0x00000103)).Inv ∧ ∃ t, step (issued full (cmdWrite 0x00000103)) = .next t :=
  ⟨inv_of (by decide), _, rfl⟩

/-- The three ways BERR goes to 0. -/
theorem witness_BerrIsSticky :
    ∀ e ∈ [HostEvent.assertReset, cmdWrite 0x00000001, .access (.write4 0x00008 0x00010000)],
      ends (step (issued { State.reset with berr := true } e)) (fun t => !t.berr) = true := by decide

/-- Each cause of R205, at the edges of its range. -/
theorem witness_BusErrorCauses :
    (∀ a ∈ [Access.read4 0x00100, .write1 0x1FFFF 1, .read1 0xA0000, .write4 0xFFFFF 1], BusErrorCause smallest a) ∧
    BusErrorCause smallest (.read4 0x00038) ∧ BusErrorCause smallest (.write4 0x00050 0) ∧
    BusErrorCause smallest (.read1 0x00000) ∧ BusErrorCause smallest (.write1 0x000FF 0) ∧
    BusErrorCause smallest (.read4 0x00001) ∧ BusErrorCause smallest (.write4 0x000FE 0) ∧
    BusErrorCause smallest (.read4 0x20000) ∧ BusErrorCause smallest (.write4 0x9FFFC 0) ∧
    BusErrorCause smallest (.read1 (0x20000 + 65541)) ∧ BusErrorCause smallest (.write1 0x7FFFF 0) ∧
    BusErrorCause smallest (.write1 0x40000 0) ∧ BusErrorCause smallest (.write1 0x80000 0) := by
  refine ⟨?_, .unassigned _ (by decide) (by intro r; cases r <;> decide),
    .unassigned _ (by decide) (by intro r; cases r <;> decide),
    .byteInRegisters _ (by decide) rfl, .byteInRegisters _ (by decide) rfl,
    .misaligned _ (by decide) (by decide), .misaligned _ (by decide) (by decide),
    .wordInWindow _ (by decide) rfl, .wordInWindow _ (by decide) rfl,
    .beyondCapacity _ .ibuf (by decide) (by decide), .beyondCapacity _ .pbuf (by decide) (by decide),
    .readOnlyWindow _ .obuf (.inl rfl) (by decide) rfl, .readOnlyWindow _ .rxq (.inr rfl) (by decide) rfl⟩
  intro a ha
  simp only [List.mem_cons, List.not_mem_nil, or_false] at ha
  rcases ha with rfl | rfl | rfl | rfl <;> exact .reserved _ (by decide)

/-- An access with none of the causes, and BERR clear. -/
theorem witness_noBusError : ¬BusErrorCause smallest (.read4 0x00008) ∧ (Access.read4 0x00008).isRead = true ∧
    State.reset.berr = false := by
  refine ⟨fun h => ?_, rfl, rfl⟩
  have address : (Access.read4 0x00008).address = 8 := rfl
  cases h with
  | reserved h => omega
  | unassigned h hr => exact hr .status rfl
  | byteInRegisters h hb => cases hb
  | misaligned h hm => omega
  | wordInWindow h hb => omega
  | beyondCapacity w h hc => cases w <;> simp only [Win.base] at h <;> omega
  | readOnlyWindow w hw h hs => cases hs

/-- A length at the capacity, and one above it. -/
theorem witness_RegisterWrites : State.reset.params.Legal ∧ (131072 : Word).toNat ≤ State.reset.params.ibufCap ∧
    State.reset.params.ibufCap < (131073 : Word).toNat ∧ (131072 : Word).toNat ≤ State.reset.params.pbufCap ∧
    State.reset.params.pbufCap < (131073 : Word).toNat := by decide

/-- The first and the last byte of each window. -/
theorem witness_Windows : State.reset.params.Legal ∧
    (∀ base ∈ [0x20000, 0x40000, 0x60000, 0x80000], ∀ i ∈ [0, 131071],
      (BitVec.ofNat 20 (base + i) : Addr).toNat = base + i) ∧
    131071 < State.reset.params.ibufCap ∧ 131071 < State.reset.params.rxqCap := by decide

theorem witness_EarlierEvents : ∃ t,
    Host.Core.run core 2 ({ State.reset with pending := [cmdWrite 0x00000010, .assertReset] } : State) = .next t :=
  ⟨_, rfl⟩

/-- The last operands accepted and the first refused. -/
theorem witness_AssemblerChecksOperands : 255 ≤ 255 ∧ 255 < 256 ∧ 1 ≤ 1 ∧ 1 < 2 := by decide

/-- The fixture frame fits the smallest buffers. -/
theorem witness_Loads : ({ State.reset with params := smallest } : State).Inv ∧ State.reset.resetPin = false ∧
    fixture.length ≤ smallest.ibufCap ∧ fixture.length ≤ smallest.pbufCap :=
  ⟨inv_of (by decide), rfl, by decide, by decide⟩

end Sys2Proof.Tests
end

section
/-! Register accesses at a register's own offset, and the write to CMD (10_state.md R23). -/

namespace Sys2Proof.Machine

/-! ### Register accesses (20_memory.md R53) -/

/-- A 4-byte write to the offset of a register is that register's write. -/
theorem hostAccess_write4_regOffset (s : State) (r : Reg) (d : Word) :
    hostAccess s (.write4 (regOffset r) d) = writeReg d s r := by
  simp only [hostAccess, regAt_regOffset]

/-- A 4-byte read at the offset of a register returns that register's value. -/
theorem hostAccess_read4_regOffset (s : State) (r : Reg) :
    hostAccess s (.read4 (regOffset r)) = .next { s with reply := .word (readReg s r) } := by
  simp only [hostAccess, regAt_regOffset]

/-! ### The command a word runs (R23, R74) -/

theorem runCommand_of_decode_ok {w : Word} {i : Instr} (h : decode w = .ok i) (s : State) :
    runCommand w s = exec i s := by
  simp only [runCommand, h]

theorem runCommand_of_decode_error {w : Word} {e : Illegal} (h : decode w = .error e) (s : State) :
    runCommand w s = raise .illegal s := by
  simp only [runCommand, h]

/-- With the reset input released, the step that serves a write of `w` to CMD runs `w`. -/
theorem step_write4_cmd (s : State) (w : Word) (rest : List HostEvent) (released : s.resetPin = false) :
    step { s with pending := .access (.write4 (regOffset .cmd) w) :: rest } =
      runCommand w { s with pending := rest, reply := .none } :=
  (step_access s _ rest released).trans (hostAccess_write4_regOffset _ .cmd w)

/-- Settles O6: the access at address 0x00004, the offset of CMD, is the write or the read of that register. -/
theorem writeToCmdRunsTheDecodedCommand : Obligations.WriteToCmdRunsTheDecodedCommand := by
  intro s rest released
  refine ⟨fun w i legal => ?_, fun w e illegal => ?_, ?_⟩
  · exact (step_write4_cmd s w rest released).trans (runCommand_of_decode_ok legal _)
  · exact (step_write4_cmd s w rest released).trans (runCommand_of_decode_error illegal _)
  · exact (step_access s _ rest released).trans (hostAccess_read4_regOffset _ .cmd)

end Sys2Proof.Machine
end

section
/-! One-byte accesses to a byte of a window (20_memory.md R51, R52). -/

namespace Sys2Proof.Machine

/-! ### The byte an address reaches (R51) -/

/-- A legal capacity is at most the 128 KiB of a window (R6, R51). -/
theorem winCap_le_of_legal {p : Config.Params} (legal : p.Legal) (w : Win) : winCap p w ≤ 0x20000 := by
  obtain ⟨⟨-, ibuf⟩, ⟨-, obuf⟩, ⟨-, pbuf⟩, ⟨-, rxq⟩⟩ := legal
  cases w <;> assumption

/-- Below the capacity, the address `base + i` reaches byte `i` of the window. -/
theorem winAt_base_add {p : Config.Params} {a : Addr} {w : Win} {i : Nat} (legal : p.Legal)
    (ha : a.toNat = w.base + i) (hi : i < winCap p w) : winAt p a = some (w, i) := by
  have := winCap_le_of_legal legal w
  exact winAt_eq_some.2 ⟨by omega, by omega, hi⟩

/-! ### A step that serves a window access (R52) -/

/-- A read returns the window's byte and changes nothing else. -/
theorem step_read1_of_winAt {s : State} {a : Addr} {w : Win} {i : Nat} (released : s.resetPin = false)
    (reaches : winAt s.params a = some (w, i)) (rest : List HostEvent) :
    step { s with pending := .access (.read1 a) :: rest } =
      .next { s with pending := rest, reply := .byte (readWin s i w) } := by
  rw [step_access s _ rest released]
  simp only [hostAccess, reaches]
  cases w <;> rfl

/-- A write is the window's own write, and returns no data. -/
theorem step_write1_of_winAt {s : State} {a : Addr} {w : Win} {i : Nat} (released : s.resetPin = false)
    (reaches : winAt s.params a = some (w, i)) (rest : List HostEvent) (v : Byte) :
    step { s with pending := .access (.write1 a v) :: rest } =
      .next (writeWin v { s with pending := rest, reply := .none } i w) := by
  rw [step_access s _ rest released]
  simp only [hostAccess, reaches]

/-- Past the end of the queue the RXQ window reads 0x00. -/
theorem readWin_rxq (s : State) (i : Nat) :
    readWin s i .rxq = if i < s.rxq.length then byteOf s.rxq i else 0 := by
  split
  · rfl
  · next past => exact List.getD_eq_default _ _ (Nat.le_of_not_lt past)

/-- Settles O45: below a legal capacity the address reaches byte `i` of its window, and the step is that window's read
or write. -/
theorem windowsReadAndWriteBytes : Obligations.WindowsReadAndWriteBytes := by
  intro s rest i a released legal
  have reach : ∀ w : Win, a.toNat = w.base + i → i < winCap s.params w → winAt s.params a = some (w, i) :=
    fun _ => winAt_base_add legal
  refine ⟨fun ha hi => ?ibuf, fun ha hi => ?obuf, fun ha hi => ?pbuf, fun ha hi => ?rxq⟩
  case ibuf =>
    have reaches := reach .ibuf ha hi
    exact ⟨step_read1_of_winAt released reaches rest, fun v =>
      ⟨_, step_write1_of_winAt released reaches rest v, fun j => Memory.byteAt_setByte s.ibuf i j v, rfl⟩⟩
  case obuf => exact step_read1_of_winAt released (reach .obuf ha hi) rest
  case pbuf =>
    have reaches := reach .pbuf ha hi
    exact ⟨step_read1_of_winAt released reaches rest, fun v =>
      ⟨_, step_write1_of_winAt released reaches rest v, fun j => Memory.byteAt_setByte s.pbuf i j v, rfl⟩⟩
  case rxq => exact readWin_rxq s i ▸ step_read1_of_winAt released (reach .rxq ha hi) rest

end Sys2Proof.Machine
end

section
/-! The opcode map in match-and-mask terms (30_encoding.md R74): a word matches a row when its opcode is the row's and
the reserved bits of the row's format are 0, which is when it decodes to the row's command. -/

namespace Sys2Proof

open Sys2Proof.Machine

/-! ### The rows of the map (R75) -/

/-- The mask of a format (R74). -/
def Format.mask : Format → Word
  | .n => 0xFFFFFFFF
  | .b => 0xFFFF00FF
  | .s => 0xFFFFFEFF

/-- The row of a mnemonic: the match is the opcode with every other bit 0. -/
def Mnemonic.row (m : Mnemonic) : OpRow := ⟨m, m.format, wordN m.opcode, m.format.mask⟩

theorem row_mem_opcodeTable (m : Mnemonic) : m.row ∈ opcodeTable := by cases m <;> decide

theorem eq_row_of_mem_opcodeTable : ∀ r ∈ opcodeTable, r = r.mnemonic.row := by decide

/-! ### Words under a mask -/

/-- The reserved bits of a format are 0 (R71 to R73). -/
def Format.ReservedClear (w : Word) : Format → Prop
  | .n => w.extractLsb' 8 24 = 0
  | .b => w.extractLsb' 16 16 = 0
  | .s => w.extractLsb' 9 23 = 0

/-- Every mask keeps the opcode. -/
theorem opField_and_mask (w : Word) (f : Format) : opField (w &&& f.mask) = opField w := by
  have ones : opField f.mask = BitVec.allOnes 8 := by cases f <;> rfl
  calc opField (w &&& f.mask) = opField w &&& opField f.mask := BitVec.extractLsb'_and
    _ = opField w := by rw [ones, BitVec.and_allOnes]

/-- Every mask keeps the reserved bits of its format. -/
theorem reservedClear_and_mask (w : Word) (f : Format) : f.ReservedClear (w &&& f.mask) ↔ f.ReservedClear w := by
  cases f <;> simp only [Format.ReservedClear, BitVec.extractLsb'_and]
  case n => exact Eq.congr_left BitVec.and_allOnes
  case b => exact Eq.congr_left BitVec.and_allOnes
  case s => exact Eq.congr_left BitVec.and_allOnes

/-- A match has no bit set above its opcode, so none that a format reserves. -/
theorem reservedClear_wordN (op : Byte) (f : Format) : f.ReservedClear (wordN op) := by
  cases f with
  | n => exact reserved_wordN op
  | b => simpa [Format.ReservedClear, wordN, wordB] using reserved_wordB op 0
  | s => simpa [Format.ReservedClear, wordN, wordS, Src.bit] using reserved_wordS op .payload

theorem wordN_and_mask (op : Byte) (f : Format) : wordN op &&& f.mask = wordN op := by
  have clear : (wordN op &&& f.mask).extractLsb' 8 24 = 0 := by
    rw [BitVec.extractLsb'_and, reserved_wordN, BitVec.zero_and]; rfl
  rw [eq_wordN clear, opField_and_mask, opField_wordN]

/-- With the reserved bits clear, the mask takes the operand away and leaves the opcode. -/
theorem and_mask_of_reservedClear {w : Word} {f : Format} (clear : f.ReservedClear w) :
    w &&& f.mask = wordN (opField w) := by
  cases f with
  | n => exact (BitVec.and_allOnes (x := w)).trans (eq_wordN clear)
  | b =>
    rw [eq_wordB clear, opField_wordB]
    exact Laws.EncodesRow.wordB_masked _ _
  | s =>
    have operand (s : Src) : s.bit.setWidth 32 <<< 8 &&& Format.mask .s = 0 := by cases s <;> decide
    rw [eq_wordS clear, opField_wordS]
    calc wordS (opField w) (srcField w) &&& Format.mask .s
        = (wordN (opField w) &&& Format.mask .s) ||| ((srcField w).bit.setWidth 32 <<< 8 &&& Format.mask .s) :=
          BitVec.and_or_distrib_right
      _ = wordN (opField w) := by rw [wordN_and_mask, operand]; exact BitVec.or_zero

theorem and_mask_eq_wordN {w : Word} {f : Format} {op : Byte} :
    w &&& f.mask = wordN op ↔ opField w = op ∧ f.ReservedClear w := by
  constructor
  · intro masked
    constructor
    · rw [← opField_and_mask w f, masked, opField_wordN]
    · rw [← reservedClear_and_mask, masked]
      exact reservedClear_wordN op f
  · rintro ⟨rfl, clear⟩
    exact and_mask_of_reservedClear clear

/-! ### Decoding by rows (R74) -/

theorem decodeAs_ok_mnemonic {w : Word} {m : Mnemonic} {i : Instr} (h : decodeAs w m = .ok i) : i.mnemonic = m := by
  cases m <;> simp only [decodeAs, formatN_ok, formatB_ok, formatS_ok] at h <;> rw [h.2] <;> rfl

theorem exists_decodeAs_ok {w : Word} {m : Mnemonic} :
    (∃ i, decodeAs w m = .ok i) ↔ m.format.ReservedClear w := by
  cases m <;> simp only [decodeAs, formatN_ok, formatB_ok, formatS_ok, exists_and_left, exists_eq, and_true] <;> rfl

theorem exists_decode_ok_mnemonic {w : Word} {m : Mnemonic} :
    (∃ i, decode w = .ok i ∧ i.mnemonic = m) ↔ opField w = m.opcode ∧ m.format.ReservedClear w := by
  rw [← exists_decodeAs_ok]
  constructor
  · rintro ⟨i, legal, rfl⟩
    obtain ⟨m, opcode, fields⟩ := decode_ok.1 legal
    obtain rfl := decodeAs_ok_mnemonic fields
    exact ⟨opcode, i, fields⟩
  · rintro ⟨opcode, i, fields⟩
    exact ⟨i, decode_ok.2 ⟨m, opcode, fields⟩, decodeAs_ok_mnemonic fields⟩

theorem row_matches {w : Word} {m : Mnemonic} :
    m.row.matches w = true ↔ ∃ i, decode w = .ok i ∧ i.mnemonic = m :=
  beq_iff_eq.trans (and_mask_eq_wordN.trans exists_decode_ok_mnemonic.symm)

theorem matches_iff_decode {w : Word} {r : OpRow} (hr : r ∈ opcodeTable) :
    r.matches w = true ↔ ∃ i, decode w = .ok i ∧ i.mnemonic = r.mnemonic := by
  rw [← row_matches, ← eq_row_of_mem_opcodeTable r hr]

/-- The two rows name the mnemonic of the one command the word decodes to. -/
theorem eq_of_matches {w : Word} {r r' : OpRow} (hr : r ∈ opcodeTable) (hr' : r' ∈ opcodeTable)
    (h : r.matches w = true) (h' : r'.matches w = true) : r = r' := by
  obtain ⟨i, legal, name⟩ := (matches_iff_decode hr).1 h
  obtain ⟨i', legal', name'⟩ := (matches_iff_decode hr').1 h'
  obtain rfl : i = i' := Except.ok.inj (legal.symm.trans legal')
  rw [eq_row_of_mem_opcodeTable r hr, eq_row_of_mem_opcodeTable r' hr', ← name, ← name']

theorem exists_decode_error {w : Word} :
    (∃ e, decode w = .error e) ↔ ∀ r ∈ opcodeTable, r.matches w = false := by
  constructor
  · rintro ⟨e, illegal⟩ r hr
    rw [← Bool.not_eq_true, matches_iff_decode hr]
    rintro ⟨i, legal, -⟩
    rw [illegal] at legal
    cases legal
  · intro unmatched
    cases legal : decode w with
    | error e => exact ⟨e, rfl⟩
    | ok i =>
      have matched : i.mnemonic.row.matches w = true := row_matches.2 ⟨i, legal, rfl⟩
      rw [unmatched _ (row_mem_opcodeTable _)] at matched
      cases matched

/-- Settles O3: in match-and-mask terms a row says what the decoder checks, the row's opcode and the reserved bits of
its format; the rest follows since a word decodes to one command at most and every mnemonic has a row. -/
theorem matchAndMaskDecideTheCommand : Obligations.MatchAndMaskDecideTheCommand := by
  intro w
  refine ⟨fun r hr => matches_iff_decode hr, fun r hr r' hr' => eq_of_matches hr hr', by decide, exists_decode_error,
    fun s unmatched => ?_⟩
  obtain ⟨e, illegal⟩ := exists_decode_error.2 unmatched
  exact runCommand_of_decode_error illegal s

end Sys2Proof
end

section
/-! The CRC commands (40_crc.md R105, R106): the word of CRC.BYTE, the table entry a step reads, and the residue that a
sequence ending with its own CRC leaves. -/

namespace Sys2Proof.Machine

/-! ### The outcome of a CRC command -/

theorem exec_crcByte (b : Byte) (s : State) :
    exec (.crcByte b) s = .next { s with crc := crcStep s.crc b, err := .ok } := rfl

theorem exec_crcBuf (s : State) :
    exec .crcBuf s = .next { s with crc := checksum s.ibSeq, err := .ok } := rfl

/-! ### The word of CRC.BYTE (R72, R75) -/

theorem decode_wordB_crcByte (b : Byte) : decode (wordB 0x11 b) = .ok (.crcByte b) := by
  have fields : decodeAs (wordB 0x11 b) .crcByte = .ok (.crcByte b) :=
    formatB_ok.2 ⟨reserved_wordB _ _, by rw [immField_wordB]⟩
  exact decode_ok.2 ⟨.crcByte, opField_wordB _ _, fields⟩

/-! ### The entry a step reads (R100, R101) -/

theorem length_crcTable : crcTable.length = 256 := by decide +kernel

/-- Every byte is an index of the table. -/
theorem crcTable_getElem?_toNat (i : Byte) : crcTable[i.toNat]? = some (crcEntry i) := by
  have inRange : i.toNat < crcTable.length := length_crcTable ▸ i.isLt
  rw [crcEntry, List.getD_eq_getElem _ _ inRange, List.getElem?_eq_getElem inRange]

theorem toNat_and_0xFF (v : Half) : (v &&& 0xFF).toNat = (lo8 v).toNat := by
  calc (v &&& 0xFF).toNat = v.toNat % 2 ^ 8 := (BitVec.toNat_and ..).trans (Nat.and_two_pow_sub_one_eq_mod _ 8)
    _ = (lo8 v).toNat := by simp [lo8]

/-- Settles O15: the step reads the entry at the low byte of CRC XOR the folded byte, which is a table index. -/
theorem crcByteFoldsOneByte : Obligations.CrcByteFoldsOneByte := by
  refine ⟨length_crcTable, decode_wordB_crcByte, fun s b => ?entry, fun s => ⟨?zero, ?ones⟩⟩
  case entry =>
    refine ⟨crcEntry (lo8 (s.crc ^^^ b.setWidth 16)), ?_, exec_crcByte b s⟩
    rw [toNat_and_0xFF, crcTable_getElem?_toNat]
  case zero =>
    have folded : crcStep 0x0000 0x00 = 0x0000 := by decide
    rw [exec_crcByte, folded]
  case ones =>
    have folded : crcStep 0xFFFF 0xFF = 0x00FF := by decide
    rw [exec_crcByte, folded]

/-! ### The residue (R103, R106) -/

/-- Either byte folded is the low byte the accumulator then has, so each fold only shifts it right by 8 bits. -/
theorem foldl_crcStep_crcBytes (c : Half) : (crcBytes c).foldl crcStep c = 0 := by
  calc (crcBytes c).foldl crcStep c = crcStep (crcStep c (lo8 c)) (hi8 c) := rfl
    _ = crcStep (c >>> 8) (lo8 (c >>> 8)) := by rw [crcStep_lo8, lo8_shiftRight]
    _ = c >>> 8 >>> 8 := crcStep_lo8 _
    _ = c >>> 16 := (BitVec.shiftRight_add c 8 8).symm
    _ = 0 := BitVec.ushiftRight_eq_zero (Nat.le_refl 16)

theorem checksum_append_crcBytes (f : List Byte) : checksum (f ++ crcBytes (checksum f)) = 0 := by
  rw [checksum_append, foldl_crcStep_crcBytes]

/-- Settles O17: CRC.BUF folds IBUF[0..IBLEN) from the seed, nothing when IBLEN is 0, and the residue of a sequence that
ends with its own CRC is 0. -/
theorem crcBufChecksumsTheInput : Obligations.CrcBufChecksumsTheInput := by
  refine ⟨by decide, fun s => ⟨exec_crcBuf s, fun empty => ?empty, fun f input => ?residue⟩⟩
  case empty =>
    have seq : s.ibSeq = [] := List.eq_nil_of_length_eq_zero (by rw [State.length_ibSeq, empty]; rfl)
    rw [exec_crcBuf, seq, checksum_nil]
  case residue =>
    have residue : checksum s.ibSeq = 0 := by
      rw [input]
      exact checksum_append_crcBytes f
    rw [exec_crcBuf, residue]

end Sys2Proof.Machine
end

section
/-! The RTU commands (41_rtu.md R120 to R122): the clauses of the decode checks, and the payload a decode stores. -/

namespace Sys2Proof.Machine

/-- Settles O19: the stored bytes are the frame of R81, and with a legal capacity their count fits OBLEN. -/
theorem rtuEncWritesTheFrame : Obligations.RtuEncWritesTheFrame := by
  refine ⟨by decide, fun s legal => ?_⟩
  obtain ⟨exceeds, run⟩ | ⟨fits, run⟩ := execRtuEnc_cases s
  · exact ⟨fun _ => run, fun fits => absurd exceeds (Nat.not_lt.2 fits)⟩
  · refine ⟨fun exceeds => absurd exceeds (Nat.not_lt.2 fits), fun _ => ⟨_, run, rfl, ?length, fun j => ?bytes, rfl⟩⟩
    case length =>
      obtain ⟨-, ⟨-, obuf⟩, -⟩ := legal
      have inRange : s.plen.toNat + 4 < 262144 := by omega
      simpa using toNat_len18 inRange
    case bytes => exact length_rtuFrame s ▸ Memory.byteAt_store s.obuf s.rtuFrame j

/-! ### The checks of a decode (R121, R206) -/

/-- The check of R103 on IBUF[0..IBLEN), with its length written as IBLEN. -/
theorem crcGood_ibSeq {s : State} : crcGood s.ibSeq = true ↔
    checksum (s.ibSeq.take (s.iblen.toNat - 2)) =
      be16 (byteOf s.ibSeq (s.iblen.toNat - 1)) (byteOf s.ibSeq (s.iblen.toNat - 2)) := by
  rw [crcGood, State.length_ibSeq, beq_iff_eq]

section
variable {s : State} {overhead : Nat}

theorem rtuError_short (short : s.iblen.toNat < 5) : s.rtuError overhead = some .short := by
  simpa [short, Nat.not_le.2 short] using rtuError_cases s overhead

theorem rtuError_crc (long : 5 ≤ s.iblen.toNat) (bad : ¬crcGood s.ibSeq = true) :
    s.rtuError overhead = some .crc := by
  simpa [long, Nat.not_lt.2 long, bad] using rtuError_cases s overhead

theorem rtuError_overflow (long : 5 ≤ s.iblen.toNat) (good : crcGood s.ibSeq = true)
    (exceeds : s.params.pbufCap < s.iblen.toNat - overhead) : s.rtuError overhead = some .overflow := by
  simpa [long, Nat.not_lt.2 long, good, exceeds, Nat.not_le.2 exceeds] using rtuError_cases s overhead

theorem rtuError_none (long : 5 ≤ s.iblen.toNat) (good : crcGood s.ibSeq = true)
    (fits : s.iblen.toNat - overhead ≤ s.params.pbufCap) : s.rtuError overhead = none := by
  simpa [long, Nat.not_lt.2 long, good, fits, Nat.not_lt.2 fits] using rtuError_cases s overhead

end

theorem execRtuDecq_of_error {s : State} {e : Err} (h : s.rtuError 4 = some e) : execRtuDecq s = raise e s := by
  simpa [h] using execRtuDecq_cases s

theorem execRtuDecq_of_none {s : State} (h : s.rtuError 4 = none) :
    execRtuDecq s = done ((s.setFrame (byteOf s.ibSeq 0) (byteOf s.ibSeq 1)).storePbuf
      (slice s.ibSeq 2 (s.iblen.toNat - 2))) := by
  simpa [h] using execRtuDecq_cases s

theorem execRtuDecr_of_error {s : State} {e : Err} (h : s.rtuError 5 = some e) : execRtuDecr s = raise e s := by
  simpa [h] using execRtuDecr_cases s

theorem execRtuDecr_of_none {s : State} (h : s.rtuError 5 = none) :
    execRtuDecr s = done ({ s.setFrame (byteOf s.ibSeq 0) (byteOf s.ibSeq 1) with
      size := byteOf s.ibSeq 2 }.storePbuf (slice s.ibSeq 3 (s.iblen.toNat - 2))) := by
  simpa [h] using execRtuDecr_cases s

/-! ### The fields a decode takes from the input (R81, R82) -/

theorem byteOf_ibSeq {s : State} {i : Nat} (h : i < s.iblen.toNat) : byteOf s.ibSeq i = s.ibuf.byteAt i :=
  Memory.byteOf_seq s.ibuf _ i h

/-- The payload lies between the `lo` bytes before it and the two CRC bytes. -/
theorem length_rtuPayload (s : State) (lo : Nat) :
    (slice s.ibSeq lo (s.iblen.toNat - 2)).length = s.iblen.toNat - (lo + 2) := by
  rw [length_slice _ _ _ (by simp)]
  omega

/-- A payload is shorter than the input, so a length register holds its length. -/
theorem toNat_len18_rtuPayload (s : State) (lo : Nat) :
    (len18 (slice s.ibSeq lo (s.iblen.toNat - 2)).length).toNat = s.iblen.toNat - (lo + 2) := by
  rw [length_rtuPayload]
  exact toNat_len18 (Nat.lt_of_le_of_lt (Nat.sub_le _ _) s.iblen.isLt)

theorem byteAt_store_rtuPayload (s : State) (m : Memory) (lo j : Nat) :
    (m.store (slice s.ibSeq lo (s.iblen.toNat - 2))).byteAt j =
      if j < s.iblen.toNat - (lo + 2) then s.ibuf.byteAt (j + lo) else m.byteAt j := by
  rw [Memory.byteAt_store, length_rtuPayload]
  split
  · next below => rw [byteOf_slice (by omega), byteOf_ibSeq (by omega)]
  · rfl

/-- Settles O20: the four clauses are those of the decode checks with 4 bytes of overhead. -/
theorem rtuDecqDecodesRequestForm : Obligations.RtuDecqDecodesRequestForm := by
  refine ⟨by decide, fun s => ⟨fun short => execRtuDecq_of_error (rtuError_short short), fun long bad => ?crc,
    fun long ok exceeds => ?overflow, fun long ok fits => ?taken⟩⟩
  case crc => exact execRtuDecq_of_error (rtuError_crc long (mt crcGood_ibSeq.1 bad))
  case overflow => exact execRtuDecq_of_error (rtuError_overflow long (crcGood_ibSeq.2 (not_not.1 ok)) exceeds)
  case taken =>
    have passed := rtuError_none long (crcGood_ibSeq.2 (not_not.1 ok)) fits
    exact ⟨_, execRtuDecq_of_none passed, rfl, byteOf_ibSeq (by omega), byteOf_ibSeq (by omega),
      toNat_len18_rtuPayload s 2, byteAt_store_rtuPayload s s.pbuf 2, rfl⟩

/-- Settles O21: the clauses of the decode checks with 5 bytes of overhead; byte 2 goes to SIZE without a check. -/
theorem rtuDecrDecodesResponseForm : Obligations.RtuDecrDecodesResponseForm := by
  refine ⟨by decide, fun s => ⟨fun short => execRtuDecr_of_error (rtuError_short short), fun long bad => ?crc,
    fun long ok exceeds => ?overflow, fun long ok fits => ?taken⟩⟩
  case crc => exact execRtuDecr_of_error (rtuError_crc long (mt crcGood_ibSeq.1 bad))
  case overflow => exact execRtuDecr_of_error (rtuError_overflow long (crcGood_ibSeq.2 (not_not.1 ok)) exceeds)
  case taken =>
    have passed := rtuError_none long (crcGood_ibSeq.2 (not_not.1 ok)) fits
    exact ⟨_, execRtuDecr_of_none passed, rfl, byteOf_ibSeq (by omega), byteOf_ibSeq (by omega),
      byteOf_ibSeq (by omega), toNat_len18_rtuPayload s 3, byteAt_store_rtuPayload s s.pbuf 3, rfl⟩

end Sys2Proof.Machine
end

section
/-! The TCP commands (42_tcp.md R140 to R143): the clauses of each command's checks, the frame TCP.ENC writes, and the
sequences the commands store. -/

namespace Sys2Proof.Machine

/-! ### Buffers that store a sequence read whole (R10) -/

theorem Memory.byteAt_store_seq (m m' : Memory) (n j : Nat) :
    (m.store (m'.seq n)).byteAt j = if j < n then m'.byteAt j else m.byteAt j := by
  rw [byteAt_store, length_seq]
  split
  · next below => exact byteOf_seq m' n j below
  · rfl

/-- A canonical buffer that stores its own front is unchanged. -/
theorem Memory.store_seq_self {m : Memory} (canonical : m.wf) (n : Nat) : m.store (m.seq n) = m :=
  ext_of_wf (wf_store canonical _) canonical fun i => by rw [byteAt_store_seq, ite_self]

/-! ### Fields and slices of the input (R9) -/

section
variable {s : State}

/-- A big-endian field inside the input is made of its two bytes of IBUF. -/
theorem be16_ibSeq {i : Nat} (inside : i + 1 < s.iblen.toNat) :
    be16 (byteOf s.ibSeq i) (byteOf s.ibSeq (i + 1)) = be16 (s.ibuf.byteAt i) (s.ibuf.byteAt (i + 1)) := by
  rw [byteOf_ibSeq inside, byteOf_ibSeq (Nat.lt_of_succ_lt inside)]

theorem toNat_len18_ibSlice {lo hi : Nat} (inside : hi ≤ s.iblen.toNat) :
    (len18 (slice s.ibSeq lo hi).length).toNat = hi - lo := by
  have inRange : hi - lo < 262144 := (Nat.sub_le hi lo).trans_lt (inside.trans_lt s.iblen.isLt)
  rw [length_slice _ _ _ (by simpa), toNat_len18 inRange]

/-- A slice of the input copies its bytes of IBUF to the front of the buffer it is stored in. -/
theorem byteAt_store_ibSlice (m : Memory) {lo hi : Nat} (inside : hi ≤ s.iblen.toNat) (j : Nat) :
    (m.store (slice s.ibSeq lo hi)).byteAt j = if j < hi - lo then s.ibuf.byteAt (j + lo) else m.byteAt j := by
  rw [Memory.byteAt_store, length_slice _ _ _ (by simpa)]
  split
  · next below => rw [byteOf_slice below, byteOf_ibSeq (by omega)]
  · rfl

end

/-! ### TCP.DEC (R140) -/

section
variable {s : State}

theorem execTcpDec_of_short (short : s.iblen.toNat < 8) : execTcpDec s = raise .short s := by
  simpa [short, Nat.not_le.2 short] using execTcpDec_cases s

theorem execTcpDec_of_mismatch (long : 8 ≤ s.iblen.toNat)
    (mismatch : s.iblen.toNat ≠ (be16 (byteOf s.ibSeq 4) (byteOf s.ibSeq 5)).toNat + 6) :
    execTcpDec s = raise .length s := by
  simpa [long, Nat.not_lt.2 long, mismatch] using execTcpDec_cases s

theorem execTcpDec_of_match (long : 8 ≤ s.iblen.toNat)
    (agrees : s.iblen.toNat = (be16 (byteOf s.ibSeq 4) (byteOf s.ibSeq 5)).toNat + 6) :
    execTcpDec s = done (({ s with
      tid := be16 (byteOf s.ibSeq 0) (byteOf s.ibSeq 1), pid := be16 (byteOf s.ibSeq 2) (byteOf s.ibSeq 3),
      tlen := be16 (byteOf s.ibSeq 4) (byteOf s.ibSeq 5) }.setFrame
        (byteOf s.ibSeq 6) (byteOf s.ibSeq 7)).storePbuf (slice s.ibSeq 8 s.iblen.toNat)) := by
  obtain ⟨short, -⟩ | ⟨-, mismatch, -⟩ | ⟨-, -, run⟩ := execTcpDec_cases s
  · exact absurd short (Nat.not_lt.2 long)
  · exact absurd agrees mismatch
  · exact run

end

/-- Settles O24: with the minimum met, every byte the checks and the fields read lies inside the input, and a length
field that agrees leaves two bytes less than itself for the payload. -/
theorem tcpDecDecodesTheFrame : Obligations.TcpDecDecodesTheFrame := by
  refine ⟨by decide, fun s => ⟨execTcpDec_of_short, fun long mismatch => ?length, fun long agrees => ?taken⟩⟩
  case length => exact execTcpDec_of_mismatch long (by rwa [be16_ibSeq (by omega)])
  case taken =>
    have run := execTcpDec_of_match long (by rwa [be16_ibSeq (by omega)])
    have payload : s.iblen.toNat - 8 = (be16 (s.ibuf.byteAt 4) (s.ibuf.byteAt 5)).toNat - 2 := by omega
    exact ⟨_, run, rfl, be16_ibSeq (by omega), be16_ibSeq (by omega), be16_ibSeq (by omega),
      byteOf_ibSeq (by omega), byteOf_ibSeq (by omega), payload ▸ toNat_len18_ibSlice le_rfl,
      payload ▸ byteAt_store_ibSlice s.pbuf le_rfl, rfl⟩

/-! ### TCP.ENC (R141) -/

/-- The frame is 8 bytes of header, address and function, and then the payload (R83). -/
theorem byteOf_tcpFrame (s : State) (l : Half) (j : Nat) : byteOf (s.tcpFrame l) j =
    if j < 8 then byteOf [hi8 s.tid, lo8 s.tid, hi8 s.pid, lo8 s.pid, hi8 l, lo8 l, s.addr, s.fn] j
    else byteOf s.pbSeq (j - 8) :=
  byteOf_append _ _ j

theorem byteAt_store_tcpFrame (s : State) (m : Memory) (l : Half) (j : Nat) :
    (m.store (s.tcpFrame l)).byteAt j =
      if j < 8 then byteOf [hi8 s.tid, lo8 s.tid, hi8 s.pid, lo8 s.pid, hi8 l, lo8 l, s.addr, s.fn] j
      else if j < s.plen.toNat + 8 then s.pbuf.byteAt (j - 8) else m.byteAt j := by
  rw [Memory.byteAt_store, length_tcpFrame, byteOf_tcpFrame]
  by_cases header : j < 8
  · rw [if_pos (Nat.lt_add_left _ header), if_pos header, if_pos header]
  · rw [if_neg header, if_neg header]
    split
    · next below => exact Memory.byteOf_seq s.pbuf _ _ (by omega)
    · rfl

/-- Settles O25: the first check bounds PLEN so that the computed length fits TLEN and the frame's length OBLEN. -/
theorem tcpEncEncodesTheFrame : Obligations.TcpEncEncodesTheFrame := by
  refine ⟨by decide, fun s => ?_⟩
  obtain ⟨exceeds, run⟩ | ⟨countFits, frameFits, run⟩ := execTcpEnc_cases s
  · exact ⟨fun _ => run, fun countFits frameFits => by omega⟩
  · refine ⟨fun exceeds => by omega, fun _ _ => ⟨_, run, rfl, ?length, ?field, ?bytes, rfl⟩⟩
    case length =>
      have inRange : s.plen.toNat + 8 < 262144 := by omega
      simpa using toNat_len18 inRange
    case field => exact Nat.mod_eq_of_lt (by omega)
    case bytes => exact byteAt_store_tcpFrame s s.obuf _

/-! ### TCP.SETP (R142) -/

section
variable {s : State} {src : Src}

theorem execTcpSetp_of_exceeds (exceeds : s.params.pbufCap < (s.srcData src).length) :
    execTcpSetp src s = raise .overflow s := by
  simpa [exceeds, Nat.not_le.2 exceeds] using execTcpSetp_cases src s

theorem execTcpSetp_of_fits (fits : (s.srcData src).length ≤ s.params.pbufCap) :
    execTcpSetp src s = done (s.storePbuf (s.srcData src)) := by
  simpa [fits, Nat.not_lt.2 fits] using execTcpSetp_cases src s

end

/-- The payload stored over itself leaves PBUF and PLEN as they were. -/
theorem State.storePbuf_pbSeq {s : State} (canonical : s.pbuf.wf) : s.storePbuf s.pbSeq = s := by
  rw [storePbuf, length_pbSeq, len18_toNat, pbSeq, Memory.store_seq_self canonical]

theorem execTcpSetp_payload {s : State} (inv : s.Inv) : execTcpSetp .payload s = done s := by
  have fits : (s.srcData .payload).length ≤ s.params.pbufCap := (State.length_pbSeq s).trans_le inv.plen
  rw [execTcpSetp_of_fits fits]
  exact congrArg done (State.storePbuf_pbSeq inv.pbuf.1)

/-- Settles O26: the selected data is a sequence of one of the two buffers, so storing it copies that buffer's front. -/
theorem tcpSetpReplacesThePayload : Obligations.TcpSetpReplacesThePayload := by
  refine ⟨by decide, by decide, fun s src inv => ?_⟩
  intro len data
  have read : s.srcData src = data.seq len := by cases src <;> rfl
  have length : (s.srcData src).length = len := by rw [read, Memory.length_seq]
  refine ⟨fun exceeds => execTcpSetp_of_exceeds (length ▸ exceeds),
    fun own => own ▸ execTcpSetp_payload inv,
    fun fits => ⟨_, execTcpSetp_of_fits (length ▸ fits), rfl, ?plen, fun j => ?bytes, rfl⟩⟩
  case plen =>
    obtain ⟨-, -, pbufCap, -⟩ := inv.caps_fit
    exact length ▸ toNat_len18 (by omega)
  case bytes => exact read ▸ Memory.byteAt_store_seq s.pbuf data len j

/-! ### TCP.SETPS (R143) -/

section
variable {s : State} {src : Src}

theorem execTcpSetps_of_exceeds
    (exceeds : 255 < (s.srcData src).length ∨ s.params.pbufCap < (s.srcData src).length + 1) :
    execTcpSetps src s = raise .overflow s := by
  obtain ⟨-, run⟩ | ⟨countFits, dataFits, -⟩ := execTcpSetps_cases src s
  · exact run
  · omega

theorem execTcpSetps_of_fits (countFits : (s.srcData src).length ≤ 255)
    (dataFits : (s.srcData src).length + 1 ≤ s.params.pbufCap) :
    execTcpSetps src s = done (s.storePbuf (withSize (s.srcData src))) := by
  obtain ⟨exceeds, -⟩ | ⟨-, -, run⟩ := execTcpSetps_cases src s
  · omega
  · exact run

end

theorem length_withSize (d : List Byte) : (withSize d).length = d.length + 1 := rfl

/-- The count is one byte, so it is the length of data of at most 255 bytes (R84). -/
theorem byteAt_zero_store_withSize (m : Memory) {d : List Byte} (countFits : d.length ≤ 255) :
    ((m.store (withSize d)).byteAt 0).toNat = d.length := by
  rw [Memory.byteAt_store, length_withSize, if_pos (Nat.succ_pos _)]
  exact Nat.mod_eq_of_lt (Nat.lt_succ_of_le countFits)

theorem byteAt_succ_store_withSize (m : Memory) (d : List Byte) (j : Nat) :
    (m.store (withSize d)).byteAt (j + 1) = if j < d.length then byteOf d j else m.byteAt (j + 1) := by
  simp only [Memory.byteAt_store, length_withSize, Nat.add_lt_add_iff_right]
  rfl

/-- Settles O27: the data is a sequence read before PBUF changes, so its byte `j` lands at `j + 1` behind the count. -/
theorem tcpSetpsPrependsTheCount : Obligations.TcpSetpsPrependsTheCount := by
  refine ⟨by decide, by decide, fun s src => ?_⟩
  intro len data
  have read : s.srcData src = data.seq len := by cases src <;> rfl
  have length : (s.srcData src).length = len := by rw [read, Memory.length_seq]
  rw [← length]
  refine ⟨execTcpSetps_of_exceeds, fun countFits dataFits =>
    ⟨_, execTcpSetps_of_fits countFits dataFits, rfl, ?plen, byteAt_zero_store_withSize s.pbuf countFits,
      fun j => ?bytes, rfl⟩⟩
  case plen => exact toNat_len18 (by rw [length_withSize]; omega)
  case bytes =>
    refine (byteAt_succ_store_withSize s.pbuf _ j).trans ?_
    split
    · next below => rw [read, Memory.byteOf_seq _ _ _ (length ▸ below)]
    · rfl

end Sys2Proof.Machine
end

section
/-! The stream commands (43_stream.md R161, R162): the clauses of each command's checks, and the bytes that pass between
RXQ and IBUF. -/

namespace Sys2Proof.Machine

/-! ### RX.PUSH (R161) -/

section
variable {s : State}

theorem execRxPush_of_exceeds (exceeds : s.params.rxqCap < s.rxq.length + s.iblen.toNat) :
    execRxPush s = raise .overflow s := by
  simpa [exceeds, Nat.not_le.2 exceeds] using execRxPush_cases s

theorem execRxPush_of_fits (fits : s.rxq.length + s.iblen.toNat ≤ s.params.rxqCap) :
    execRxPush s = done { s with rxq := s.rxq ++ s.ibSeq } := by
  simpa [fits, Nat.not_lt.2 fits] using execRxPush_cases s

end

/-- The queue after a push: its own bytes, then those of the input, and nothing behind them. -/
theorem byteOf_rxq_append_ibSeq (s : State) (j : Nat) : byteOf (s.rxq ++ s.ibSeq) j =
    if j < s.rxq.length then byteOf s.rxq j
    else if j < s.rxq.length + s.iblen.toNat then s.ibuf.byteAt (j - s.rxq.length) else 0 := by
  rw [byteOf_append]
  split
  · rfl
  · split
    · next inside => exact byteOf_ibSeq (by omega)
    · next past => exact byteOf_past (by rw [State.length_ibSeq]; omega)

/-- Settles O29: the one check compares the length of the queue with the input behind it to RXQ_CAP, and a push that
fits appends the whole input. -/
theorem rxPushAppendsTheInput : Obligations.RxPushAppendsTheInput := by
  refine ⟨by decide, fun s => ⟨execRxPush_of_exceeds, fun fits =>
    ⟨_, execRxPush_of_fits fits, rfl, ?length, byteOf_rxq_append_ibSeq s, rfl⟩⟩⟩
  case length => exact List.length_append.trans (congrArg _ (State.length_ibSeq s))

/-! ### RX.POP (R160, R162) -/

/-- No frame is available while the length field or the frame it announces is not all there. -/
theorem avail_eq_false_iff {q : List Byte} : avail q = false ↔ q.length < 6 ∨ q.length < flen q := by
  rw [← Bool.not_eq_true, avail_iff]
  omega

section
variable {s : State}

theorem execRxPop_of_unavailable (unavailable : avail s.rxq = false) : execRxPop s = raise .noFrame s := by
  simpa [unavailable] using execRxPop_cases s

theorem execRxPop_of_exceeds (available : avail s.rxq = true) (exceeds : s.params.ibufCap < flen s.rxq) :
    execRxPop s = raise .overflow s := by
  simpa [available, exceeds, Nat.not_le.2 exceeds] using execRxPop_cases s

theorem execRxPop_of_fits (available : avail s.rxq = true) (fits : flen s.rxq ≤ s.params.ibufCap) :
    execRxPop s =
      done { s.storeIbuf (s.rxq.take (flen s.rxq)) with rxq := s.rxq.drop (flen s.rxq) } := by
  simpa [available, fits, Nat.not_lt.2 fits] using execRxPop_cases s

end

/-- Storing the first `k` bytes of a sequence that has them. -/
theorem Memory.byteAt_store_take (m : Memory) {q : List Byte} {k : Nat} (whole : k ≤ q.length) (j : Nat) :
    (m.store (q.take k)).byteAt j = if j < k then byteOf q j else m.byteAt j := by
  rw [byteAt_store, List.length_take_of_le whole]
  split
  · next below => exact byteOf_take below
  · rfl

/-- A frame's length fits a length register, whatever its length field holds. -/
theorem toNat_len18_take_flen {q : List Byte} (whole : flen q ≤ q.length) :
    (len18 (q.take (flen q)).length).toNat = flen q := by
  have bound := flen_lt q
  rw [List.length_take_of_le whole]
  exact toNat_len18 (by omega)

/-- Settles O30: the number of bytes the statement writes out is `flen` of the queue, so its clauses are those of the
availability check and of the capacity check; a frame that is taken is the queue's first `flen` bytes. -/
theorem rxPopTakesOneFrame : Obligations.RxPopTakesOneFrame := by
  refine ⟨by decide, fun s => ?_⟩
  intro k
  have frameLength : k = flen s.rxq := rfl
  rw [frameLength]
  refine ⟨fun missing => execRxPop_of_unavailable (avail_eq_false_iff.2 missing),
    fun header whole => execRxPop_of_exceeds ((avail_iff _).2 ⟨header, whole⟩),
    fun header whole fits => ⟨_, execRxPop_of_fits ((avail_iff _).2 ⟨header, whole⟩) fits, rfl,
      toNat_len18_take_flen whole, Memory.byteAt_store_take s.ibuf whole, ?length, byteOf_drop s.rxq _, rfl⟩⟩
  case length =>
    calc (s.rxq.drop (flen s.rxq)).length + flen s.rxq
        = s.rxq.length - flen s.rxq + flen s.rxq := by rw [List.length_drop]
      _ = s.rxq.length := Nat.sub_add_cancel whole

end Sys2Proof.Machine
end

section
/-! The control commands and the clearing commands (44_control.md R170 to R174, 40_crc.md R104, 43_stream.md R163): their
words, the clauses of the two checks, and the reset the command and the input share. -/

namespace Sys2Proof.Machine

/-! ### IB.PUSH (R173) -/

theorem decode_wordB_ibPush (b : Byte) : decode (wordB 0x03 b) = .ok (.ibPush b) := by
  have fields : decodeAs (wordB 0x03 b) .ibPush = .ok (.ibPush b) :=
    formatB_ok.2 ⟨reserved_wordB _ _, by rw [immField_wordB]⟩
  exact decode_ok.2 ⟨.ibPush, opField_wordB _ _, fields⟩

section
variable {s : State} {b : Byte}

theorem execIbPush_of_full (full : s.iblen.toNat = s.params.ibufCap) : execIbPush b s = raise .overflow s := by
  simpa [full] using execIbPush_cases b s

theorem execIbPush_of_room (room : s.iblen.toNat ≠ s.params.ibufCap) : execIbPush b s =
    done { s with ibuf := s.ibuf.setByte s.iblen.toNat b, iblen := len18 (s.iblen.toNat + 1) } := by
  simpa [room] using execIbPush_cases b s

/-- In a well-formed state that has room, one more byte still fits IBLEN. -/
theorem State.Inv.toNat_len18_iblen_succ (inv : s.Inv) (room : s.iblen.toNat ≠ s.params.ibufCap) :
    (len18 (s.iblen.toNat + 1)).toNat = s.iblen.toNat + 1 := by
  have within := inv.iblen
  obtain ⟨ibufCap, -⟩ := inv.caps_fit
  exact toNat_len18 (by omega)

end

/-- Settles O13: a push that is not refused writes the one byte at IBLEN, and the invariant keeps IBLEN + 1 in range. -/
theorem ibPushAppendsOneByte : Obligations.IbPushAppendsOneByte := by
  intro s b inv
  exact ⟨decode_wordB_ibPush b, execIbPush_of_full, fun room =>
    ⟨_, execIbPush_of_room room, rfl, inv.toNat_len18_iblen_succ room,
      fun j => Memory.byteAt_setByte s.ibuf s.iblen.toNat j b, rfl⟩⟩

/-! ### OB.MOV (R174) -/

section
variable {s : State}

theorem execObMov_of_exceeds (exceeds : s.params.ibufCap < s.oblen.toNat) : execObMov s = raise .overflow s := by
  simpa [exceeds, Nat.not_le.2 exceeds] using execObMov_cases s

theorem execObMov_of_fits (fits : s.oblen.toNat ≤ s.params.ibufCap) :
    execObMov s = done (s.storeIbuf s.obSeq) := by
  simpa [fits, Nat.not_lt.2 fits] using execObMov_cases s

end

/-- Settles O14: the stored sequence is the front of OBUF, OBLEN bytes long, so IBLEN takes OBLEN itself. -/
theorem obMovCopiesTheOutput : Obligations.ObMovCopiesTheOutput := by
  refine ⟨by decide, fun s => ⟨execObMov_of_exceeds, fun fits =>
    ⟨_, execObMov_of_fits fits, rfl, ?length, Memory.byteAt_store_seq s.ibuf s.obuf s.oblen.toNat, rfl⟩⟩⟩
  case length => exact (congrArg len18 (State.length_obSeq s)).trans (len18_toNat s.oblen)

/-! ### RESET (R171, R220) -/

theorem exec_reset (s : State) : exec .reset s = .next s.applyReset := rfl

theorem step_assertReset (s : State) (rest : List HostEvent) :
    step { s with pending := .assertReset :: rest } =
      .next { s.applyReset with pending := rest, resetPin := true, reply := .none } := rfl

/-- Changes on the host's side of the bus leave the block state alone. -/
theorem State.sameBlock_hostSide (s : State) (p : List HostEvent) (r : Bool) (y : Reply) :
    s.sameBlock { s with pending := p, resetPin := r, reply := y } := rfl

@[simp] theorem Memory.byteAt_nil (i : Nat) : Memory.byteAt [] i = 0 := rfl

/-- No frame is available in an empty queue (R40). -/
theorem State.rxav_eq_false_of_rxq_nil {s : State} (empty : s.rxq = []) : s.rxav = false := by
  rw [rxav, empty]
  rfl

/-- Settles O9: the command and the input both apply the reset of R220, and differ in the host's side alone. -/
theorem resetCommandEqualsResetInput : Obligations.ResetCommandEqualsResetInput := by
  refine ⟨by decide, fun s rest => ⟨s.applyReset, _, exec_reset s, step_assertReset s rest,
    State.sameBlock_hostSide _ _ _ _, ?_⟩⟩
  have noFrame : s.applyReset.rxav = false := State.rxav_eq_false_of_rxq_nil s.applyReset_rxq
  simp [noFrame]

/-! ### NOP and the clearing commands (R170, R172, R104, R163) -/

theorem exec_nop (s : State) : exec .nop s = .next { s with err := .ok } := rfl

theorem exec_ibClr (s : State) : exec .ibClr s = .next { s with iblen := 0, err := .ok } := rfl

theorem exec_crcInit (s : State) : exec .crcInit s = .next { s with crc := 0xFFFF, err := .ok } := rfl

theorem exec_rxClr (s : State) : exec .rxClr s = .next { s with rxq := [], err := .ok } := rfl

theorem decode_eq_decodeAs {w : Word} {m : Mnemonic} (opcode : opField w = m.opcode) : decode w = decodeAs w m := by
  simp only [decode, mnemonicOf_eq_some.2 opcode]

/-- Opcode 0x00 is of format N, so a word with a bit set above it has a reserved bit set (R71). -/
theorem decode_of_opField_zero {w : Word} (opcode : opField w = 0) (nonzero : w ≠ 0) :
    decode w = .error (.reservedBits (opField w)) := by
  have reserved : w.extractLsb' 8 24 ≠ 0 := fun clear => nonzero (by rw [eq_wordN clear, opcode]; rfl)
  calc decode w = formatN w .nop := decode_eq_decodeAs (m := .nop) opcode
    _ = .error (.reservedBits (opField w)) := if_neg reserved

/-- Settles O12: each command is one field's write, and the only word of opcode 0x00 whose reserved bits are clear is
NOP's. -/
theorem nopAndClearingCommands : Obligations.NopAndClearingCommands := by
  refine ⟨by decide, fun w opcode nonzero => ⟨_, decode_of_opField_zero opcode nonzero⟩, fun s => ?_⟩
  exact ⟨exec_nop s, exec_ibClr s, exec_crcInit s, _, exec_rxClr s, rfl, State.rxav_eq_false_of_rxq_nil rfl⟩

end Sys2Proof.Machine
end

section
/-! How a word written to CMD ends (60_exceptions.md R202, R204): it raises a code over the state it began in, or it is
done. -/

namespace Sys2Proof.Machine

/-- Every command ends by `raise` over the state it began in or by `done`, and none of them sets BERR (R12, R24). -/
theorem exec_ends (i : Instr) (s : State) :
    (∃ e, exec i s = raise e s) ∨ ∃ u, exec i s = done u ∧ (s.berr = false → u.berr = false) := by
  cases i with
  | nop => exact .inr ⟨_, rfl, id⟩
  | reset => exact .inr ⟨_, rfl, fun _ => s.applyReset_berr⟩
  | ibClr => exact .inr ⟨_, rfl, id⟩
  | ibPush b =>
    obtain ⟨-, run⟩ | ⟨-, run⟩ := execIbPush_cases b s
    exacts [.inl ⟨_, run⟩, .inr ⟨_, run, id⟩]
  | obMov =>
    obtain ⟨-, run⟩ | ⟨-, run⟩ := execObMov_cases s
    exacts [.inl ⟨_, run⟩, .inr ⟨_, run, id⟩]
  | crcInit => exact .inr ⟨_, rfl, id⟩
  | crcByte b => exact .inr ⟨_, rfl, id⟩
  | crcBuf => exact .inr ⟨_, rfl, id⟩
  | rtuEnc =>
    obtain ⟨-, run⟩ | ⟨-, run⟩ := execRtuEnc_cases s
    exacts [.inl ⟨_, run⟩, .inr ⟨_, run, id⟩]
  | rtuDecq =>
    obtain ⟨e, -, run⟩ | ⟨-, run⟩ := execRtuDecq_cases s
    exacts [.inl ⟨e, run⟩, .inr ⟨_, run, id⟩]
  | rtuDecr =>
    obtain ⟨e, -, run⟩ | ⟨-, run⟩ := execRtuDecr_cases s
    exacts [.inl ⟨e, run⟩, .inr ⟨_, run, id⟩]
  | tcpDec =>
    obtain ⟨-, run⟩ | ⟨-, -, run⟩ | ⟨-, -, run⟩ := execTcpDec_cases s
    exacts [.inl ⟨_, run⟩, .inl ⟨_, run⟩, .inr ⟨_, run, id⟩]
  | tcpEnc =>
    obtain ⟨-, run⟩ | ⟨-, -, run⟩ := execTcpEnc_cases s
    exacts [.inl ⟨_, run⟩, .inr ⟨_, run, id⟩]
  | tcpSetp src =>
    obtain ⟨-, run⟩ | ⟨-, run⟩ := execTcpSetp_cases src s
    exacts [.inl ⟨_, run⟩, .inr ⟨_, run, id⟩]
  | tcpSetps src =>
    obtain ⟨-, run⟩ | ⟨-, -, run⟩ := execTcpSetps_cases src s
    exacts [.inl ⟨_, run⟩, .inr ⟨_, run, id⟩]
  | rxPush =>
    obtain ⟨-, run⟩ | ⟨-, run⟩ := execRxPush_cases s
    exacts [.inl ⟨_, run⟩, .inr ⟨_, run, id⟩]
  | rxPop =>
    obtain ⟨-, run⟩ | ⟨-, -, run⟩ | ⟨-, -, run⟩ := execRxPop_cases s
    exacts [.inl ⟨_, run⟩, .inl ⟨_, run⟩, .inr ⟨_, run, id⟩]
  | rxClr => exact .inr ⟨_, rfl, id⟩

/-- A word that is no command raises E_ILLEGAL, so every word ends the way a command does (R74). -/
theorem runCommand_ends (w : Word) (s : State) :
    (∃ e, runCommand w s = raise e s) ∨ ∃ u, runCommand w s = done u ∧ (s.berr = false → u.berr = false) := by
  cases h : decode w with
  | ok i => simpa only [runCommand_of_decode_ok h] using exec_ends i s
  | error e => exact .inl ⟨_, runCommand_of_decode_error h s⟩

/-- Settles O33: a code other than E_OK comes from `raise`, which writes ERR over the state the word began in. -/
theorem failedCommandChangesOnlyErr : Obligations.FailedCommandChangesOnlyErr := by
  intro w s t ran failed
  obtain ⟨e, raised⟩ | ⟨u, completed, -⟩ := runCommand_ends w s
  · obtain rfl := raise_next.1 (raised.symm.trans ran)
    rfl
  · obtain rfl := done_next.1 (completed.symm.trans ran)
    exact absurd (u.setErr_err .ok) failed

end Sys2Proof.Machine
end

section
/-! The bus errors (20_memory.md R51 to R55, 60_exceptions.md R205): the listed causes are the accesses that reach no
register and no window byte they may access, and only those set BERR. -/

namespace Sys2Proof.Machine

/-! ### The causes, by what the address reaches (R205) -/

/-- The address map: the register window, the buffer windows, and the two reserved ranges (R51). -/
theorem address_ranges (n : Nat) : n ≤ 0xFF ∨ (0x20000 ≤ n ∧ n ≤ 0x9FFFF) ∨
    ((0x100 ≤ n ∧ n ≤ 0x1FFFF) ∨ 0xA0000 ≤ n) := by omega

/-- The windows lie between the two reserved ranges (R51). -/
theorem winBase_bounds (w : Win) : 0x20000 ≤ w.base ∧ w.base + 0x1FFFF ≤ 0x9FFFF := by cases w <;> decide

/-- An address between the reserved ranges lies in a window (R51). -/
theorem exists_window {a : Addr} (h : 0x20000 ≤ a.toNat ∧ a.toNat ≤ 0x9FFFF) :
    ∃ w : Win, w.base ≤ a.toNat ∧ a.toNat ≤ w.base + 0x1FFFF := by
  obtain ibuf | obuf | pbuf | rxq : a.toNat ≤ 0x3FFFF ∨ (0x40000 ≤ a.toNat ∧ a.toNat ≤ 0x5FFFF) ∨
    (0x60000 ≤ a.toNat ∧ a.toNat ≤ 0x7FFFF) ∨ 0x80000 ≤ a.toNat := by omega
  · exact ⟨.ibuf, h.1, ibuf⟩
  · exact ⟨.obuf, obuf⟩
  · exact ⟨.pbuf, pbuf⟩
  · exact ⟨.rxq, rxq, h.2⟩

/-- An address lies in one window at most. -/
theorem window_unique {a : Addr} {w w' : Win} (h : w.base ≤ a.toNat ∧ a.toNat ≤ w.base + 0x1FFFF)
    (h' : w'.base ≤ a.toNat ∧ a.toNat ≤ w'.base + 0x1FFFF) : w = w' :=
  Option.some.inj ((winOf_eq_some.2 h).symm.trans (winOf_eq_some.2 h'))

section
variable {p : Config.Params} {x : Access} {a : Addr}

/-- A 4-byte access is a bus error exactly when its address is no register's offset. -/
theorem busErrorCause_of_four_bytes (address : x.address = a.toNat) (bytes : x.bytes = 4) :
    BusErrorCause p x ↔ regAt a = none := by
  rw [regAt_eq_none, ← address]
  constructor
  · intro cause r hr
    obtain ⟨inside, aligned⟩ := regOffset_aligned r
    cases cause with
    | reserved range => omega
    | unassigned _ noRegister => exact noRegister r hr
    | byteInRegisters _ byte => omega
    | misaligned _ odd => omega
    | wordInWindow range => omega
    | beyondCapacity w range | readOnlyWindow w _ range =>
      have := winBase_bounds w
      omega
  · intro noRegister
    obtain registers | windows | reserved := address_ranges x.address
    · exact .unassigned x registers noRegister
    · exact .wordInWindow x windows bytes
    · exact .reserved x reserved

/-- A 1-byte access is a bus error unless it reaches a window byte, and in a read-only window reads it. -/
theorem busErrorCause_of_one_byte (address : x.address = a.toNat) (bytes : x.bytes = 1) :
    BusErrorCause p x ↔
      ∀ w i, winAt p a = some (w, i) → (w = .obuf ∨ w = .rxq) ∧ x.isRead = false := by
  constructor
  · intro cause w i reaches
    obtain ⟨inside, offset, below⟩ := winAt_eq_some.1 reaches
    have := winBase_bounds w
    cases cause with
    | reserved range => omega
    | unassigned range => omega
    | byteInRegisters range => omega
    | misaligned range => omega
    | wordInWindow _ word => omega
    | beyondCapacity w' range exceeds =>
      obtain rfl := window_unique inside (address ▸ range)
      omega
    | readOnlyWindow w' readOnly range write =>
      obtain rfl := window_unique inside (address ▸ range)
      exact ⟨readOnly, write⟩
  · intro readOnly
    obtain registers | windows | reserved := address_ranges x.address
    · exact .byteInRegisters x registers bytes
    · obtain ⟨w, inside⟩ := exists_window (address ▸ windows)
      by_cases below : a.toNat - w.base < winCap p w
      · obtain ⟨window, write⟩ := readOnly w _ (winAt_eq_some.2 ⟨inside, rfl, below⟩)
        exact .readOnlyWindow x w window (address ▸ inside) write
      · exact .beyondCapacity x w (address ▸ inside) (address ▸ Nat.le_of_not_lt below)
    · exact .reserved x reserved

end

/-! ### Serving the access (R55) -/

/-- A bus error sets BERR, returns 0 to a read, and does nothing else. -/
theorem hostAccess_of_cause {s : State} {x : Access} (cause : BusErrorCause s.params x) :
    hostAccess { s with reply := .none } x = .next { s with reply := x.errorReply, berr := true } := by
  cases x with
  | read4 a | write4 a d =>
    have unassigned := (busErrorCause_of_four_bytes rfl rfl).1 cause
    simp only [hostAccess, unassigned]
    rfl
  | read1 a =>
    have unreadable := (busErrorCause_of_one_byte rfl rfl).1 cause
    cases reaches : winAt s.params a with
    | none =>
      simp only [hostAccess, reaches]
      rfl
    | some target => cases (unreadable target.1 target.2 reaches).2
  | write1 a v =>
    have readOnly := (busErrorCause_of_one_byte rfl rfl).1 cause
    cases reaches : winAt s.params a with
    | none =>
      simp only [hostAccess, reaches]
      rfl
    | some target =>
      obtain ⟨w, i⟩ := target
      simp only [hostAccess, reaches]
      obtain ⟨rfl | rfl, -⟩ := readOnly w i reaches <;> rfl

/-- No register write is a bus error, whatever its data (R23, R26, R28, R42). -/
theorem writeReg_berr_clear {s : State} (clear : s.berr = false) (d : Word) (r : Reg) :
    ∃ t, writeReg d s r = .next t ∧ t.berr = false := by
  cases r with
  | cmd =>
    obtain ⟨e, raised⟩ | ⟨u, completed, keeps⟩ := runCommand_ends d s
    · exact ⟨_, raised, clear⟩
    · exact ⟨_, completed, keeps clear⟩
  | status => exact ⟨_, rfl, by rw [clear, Bool.false_and]⟩
  | iblen | plen => exact ⟨_, rfl, by split <;> exact clear⟩
  | id | oblen | rxlen | ibcap | obcap | pbcap | rxcap => exact ⟨s, rfl, clear⟩
  | crc | tid | pid | tlen | addr | fn | size => exact ⟨_, rfl, clear⟩

/-- An access with none of the causes leaves BERR clear. -/
theorem hostAccess_berr_clear {s : State} {x : Access} (uncaused : ¬BusErrorCause s.params x)
    (clear : s.berr = false) : ∃ t, hostAccess s x = .next t ∧ t.berr = false := by
  cases x with
  | read4 a =>
    obtain ⟨r, reaches⟩ := Option.ne_none_iff_exists'.1 (mt (busErrorCause_of_four_bytes rfl rfl).2 uncaused)
    exact ⟨{ s with reply := .word (readReg s r) }, by simp only [hostAccess, reaches], clear⟩
  | write4 a d =>
    obtain ⟨r, reaches⟩ := Option.ne_none_iff_exists'.1 (mt (busErrorCause_of_four_bytes rfl rfl).2 uncaused)
    simpa only [hostAccess, reaches] using writeReg_berr_clear clear d r
  | read1 a =>
    have reachable := mt (busErrorCause_of_one_byte rfl rfl).2 uncaused
    push Not at reachable
    obtain ⟨w, i, reaches, -⟩ := reachable
    exact ⟨{ s with reply := .byte (readWin s i w) }, by simp only [hostAccess, reaches], clear⟩
  | write1 a v =>
    have reachable := mt (busErrorCause_of_one_byte rfl rfl).2 uncaused
    push Not at reachable
    obtain ⟨w, i, reaches, writable⟩ := reachable
    refine ⟨writeWin v s i w, by simp only [hostAccess, reaches], ?_⟩
    cases w with
    | ibuf | pbuf => exact clear
    | obuf => cases writable (.inl rfl) rfl
    | rxq => cases writable (.inr rfl) rfl

/-- Settles O40: with reset released the step is the access, and the address map decides both clauses. -/
theorem busErrorsAreExactlyTheListedCauses : Obligations.BusErrorsAreExactlyTheListedCauses := by
  intro s a rest released
  have served := step_access s a rest released
  refine ⟨fun cause => ?busError, fun uncaused clear => ?noBusError⟩
  case busError => exact served.trans (hostAccess_of_cause (s := { s with pending := rest }) cause)
  case noBusError =>
    rw [served]
    exact hostAccess_berr_clear (s := { s with pending := rest, reply := .none }) uncaused clear

end Sys2Proof.Machine
end

section
/-! The decoder against the encoder (30_encoding.md Part A): each undoes the other, and a word that is no command's is
illegal (R74, R76). -/

namespace Sys2Proof

open Sys2Proof.Machine

/-! ### Decoding an encoded word -/

theorem formatN_wordN (op : Byte) (i : Instr) : formatN (wordN op) i = .ok i :=
  formatN_ok.2 ⟨reserved_wordN op, rfl⟩

theorem formatB_wordB (op imm8 : Byte) (i : Byte → Instr) : formatB (wordB op imm8) i = .ok (i imm8) :=
  formatB_ok.2 ⟨reserved_wordB op imm8, by rw [immField_wordB]⟩

theorem formatS_wordS (op : Byte) (s : Src) (i : Src → Instr) : formatS (wordS op s) i = .ok (i s) :=
  formatS_ok.2 ⟨reserved_wordS op s, by rw [srcField_wordS]⟩

theorem opField_encode (i : Instr) : opField (encode i) = i.mnemonic.opcode := by
  cases i with
  | ibPush imm8 | crcByte imm8 => exact opField_wordB _ imm8
  | tcpSetp s | tcpSetps s => exact opField_wordS _ s
  | _ => exact opField_wordN _

theorem decodeAs_encode (i : Instr) : decodeAs (encode i) i.mnemonic = .ok i := by
  cases i with
  | ibPush imm8 | crcByte imm8 => exact formatB_wordB _ imm8 _
  | tcpSetp s | tcpSetps s => exact formatS_wordS _ s _
  | _ => exact formatN_wordN _ _

/-- Settles O1: the encoder puts the opcode of the command's mnemonic, and its operand where that mnemonic's format
reads it. -/
theorem decodeOfEncodeIsTheCommand : Obligations.DecodeOfEncodeIsTheCommand := fun i =>
  decode_ok.2 ⟨i.mnemonic, opField_encode i, decodeAs_encode i⟩

/-! ### Encoding a decoded word -/

/-- With the reserved bits clear a word is its opcode and its operand, which is what the encoder puts together. -/
theorem encode_of_decodeAs {w : Word} {m : Mnemonic} {i : Instr} (opcode : opField w = m.opcode)
    (fields : decodeAs w m = .ok i) : encode i = w := by
  cases m with
  | ibPush | crcByte =>
    obtain ⟨clear, rfl⟩ := formatB_ok.1 fields
    exact (congrArg (wordB · (immField w)) opcode.symm).trans (eq_wordB clear).symm
  | tcpSetp | tcpSetps =>
    obtain ⟨clear, rfl⟩ := formatS_ok.1 fields
    exact (congrArg (wordS · (srcField w)) opcode.symm).trans (eq_wordS clear).symm
  | _ =>
    obtain ⟨clear, rfl⟩ := formatN_ok.1 fields
    exact (congrArg wordN opcode.symm).trans (eq_wordN clear).symm

/-- Settles O2: the opcode and the operand the decoder reads, with the reserved bits clear, are the whole word. -/
theorem encodeOfDecodeIsTheWord : Obligations.EncodeOfDecodeIsTheWord := fun _ _ legal =>
  let ⟨_, opcode, fields⟩ := decode_ok.1 legal
  encode_of_decodeAs opcode fields

/-! ### Illegal words (R74, R76) -/

/-- A word whose reserved bits are set for every mnemonic of its opcode, if there is one, raises E_ILLEGAL. -/
theorem runCommand_of_illegal {w : Word} (illegal : ∀ m : Mnemonic, opField w = m.opcode → ¬m.format.ReservedClear w)
    (s : State) : runCommand w s = raise .illegal s := by
  cases h : decode w with
  | error e => exact runCommand_of_decode_error h s
  | ok i =>
    obtain ⟨opcode, clear⟩ := exists_decode_ok_mnemonic.1 ⟨i, h, rfl⟩
    exact absurd clear (illegal i.mnemonic opcode)

/-- The opcodes of R75 lie outside the unassigned ranges of R76. -/
theorem opcode_assigned (m : Mnemonic) :
    let op := m.opcode.toNat
    ¬((0x05 ≤ op ∧ op ≤ 0x0F) ∨ (0x13 ≤ op ∧ op ≤ 0x1F) ∨ (0x23 ≤ op ∧ op ≤ 0x2F) ∨
      (0x34 ≤ op ∧ op ≤ 0x3F) ∨ 0x43 ≤ op) := by
  cases m <;> decide

/-- The format of a mnemonic, read off its opcode. -/
theorem format_of_opcode (m : Mnemonic) :
    let op := m.opcode.toNat
    (op = 0x03 ∨ op = 0x11 → m.format = .b) ∧ (op = 0x32 ∨ op = 0x33 → m.format = .s) ∧
      (op ∉ [0x03, 0x11, 0x32, 0x33] → m.format = .n) := by
  cases m <;> decide

/-- Settles O4: an opcode of an unassigned range is no mnemonic's, and a listed one tells the format whose reserved bits
the word has set. -/
theorem reservedEncodingsAreIllegal : Obligations.ReservedEncodingsAreIllegal := by
  intro w s reserved
  refine runCommand_of_illegal (fun m opcode clear => ?_) s
  have assigned := opcode_assigned m
  obtain ⟨formatB, formatS, formatN⟩ := format_of_opcode m
  rw [← opcode, opField] at assigned formatB formatS formatN
  obtain range | range | range | range | range | ⟨listed, set⟩ | ⟨listed, set⟩ | ⟨listed, set⟩ := reserved
  · exact assigned (.inl range)
  · exact assigned (.inr (.inl range))
  · exact assigned (.inr (.inr (.inl range)))
  · exact assigned (.inr (.inr (.inr (.inl range))))
  · exact assigned (.inr (.inr (.inr (.inr range))))
  · exact set (formatB listed ▸ clear : Format.ReservedClear w .b)
  · exact set (formatS listed ▸ clear : Format.ReservedClear w .s)
  · exact set (formatN listed ▸ clear : Format.ReservedClear w .n)

/-- Settles O5: the words are the spec's own. -/
theorem specWordsDecode : Obligations.SpecWordsDecode := by
  unfold Obligations.SpecWordsDecode
  decide

end Sys2Proof
end

section
/-! A command as its checks and its writes, said once (00_scope.md R12): from it the table of possible codes
(60_exceptions.md R202) and who writes each register (10_state.md). -/

namespace Sys2Proof.Machine

/-! ### The checks and the writes of a command -/

/-- The code the checks of a command raise in state `s`, in the order of R206; none where they pass. -/
def failure : Instr → State → Option Err
  | .ibPush _, s => if s.iblen.toNat = s.params.ibufCap then some .overflow else none
  | .obMov, s => if s.oblen.toNat > s.params.ibufCap then some .overflow else none
  | .rtuEnc, s => if s.plen.toNat + 4 > s.params.obufCap then some .overflow else none
  | .rtuDecq, s => s.rtuError 4
  | .rtuDecr, s => s.rtuError 5
  | .tcpDec, s =>
    if s.iblen.toNat < 8 then some .short
    else if s.iblen.toNat ≠ (be16 (byteOf s.ibSeq 4) (byteOf s.ibSeq 5)).toNat + 6 then some .length
    else none
  | .tcpEnc, s =>
    if s.plen.toNat > 65533 then some .overflow
    else if s.plen.toNat + 8 > s.params.obufCap then some .overflow
    else none
  | .tcpSetp src, s => if (s.srcData src).length > s.params.pbufCap then some .overflow else none
  | .tcpSetps src, s =>
    if (s.srcData src).length > 255 then some .overflow
    else if (s.srcData src).length + 1 > s.params.pbufCap then some .overflow
    else none
  | .rxPush, s => if s.rxq.length + s.iblen.toNat > s.params.rxqCap then some .overflow else none
  | .rxPop, s =>
    if !avail s.rxq then some .noFrame
    else if flen s.rxq > s.params.ibufCap then some .overflow
    else none
  | .nop, _ | .reset, _ | .ibClr, _ | .crcInit, _ | .crcByte _, _ | .crcBuf, _ | .rxClr, _ => none

/-- What a command whose checks pass writes, STATUS.ERR apart. -/
def writes : Instr → State → State
  | .nop, s => s
  | .reset, s => s.applyReset
  | .ibClr, s => { s with iblen := 0 }
  | .ibPush b, s => { s with ibuf := s.ibuf.setByte s.iblen.toNat b, iblen := len18 (s.iblen.toNat + 1) }
  | .obMov, s => s.storeIbuf s.obSeq
  | .crcInit, s => { s with crc := 0xFFFF }
  | .crcByte b, s => { s with crc := crcStep s.crc b }
  | .crcBuf, s => { s with crc := checksum s.ibSeq }
  | .rtuEnc, s => s.storeObuf s.rtuFrame
  | .rtuDecq, s => (s.setFrame (byteOf s.ibSeq 0) (byteOf s.ibSeq 1)).storePbuf (slice s.ibSeq 2 (s.iblen.toNat - 2))
  | .rtuDecr, s =>
    { s.setFrame (byteOf s.ibSeq 0) (byteOf s.ibSeq 1) with size := byteOf s.ibSeq 2 }.storePbuf
      (slice s.ibSeq 3 (s.iblen.toNat - 2))
  | .tcpDec, s =>
    ({ s with
      tid := be16 (byteOf s.ibSeq 0) (byteOf s.ibSeq 1), pid := be16 (byteOf s.ibSeq 2) (byteOf s.ibSeq 3),
      tlen := be16 (byteOf s.ibSeq 4) (byteOf s.ibSeq 5) }.setFrame
        (byteOf s.ibSeq 6) (byteOf s.ibSeq 7)).storePbuf (slice s.ibSeq 8 s.iblen.toNat)
  | .tcpEnc, s =>
    { s.storeObuf (s.tcpFrame (BitVec.ofNat 16 (s.plen.toNat + 2))) with tlen := BitVec.ofNat 16 (s.plen.toNat + 2) }
  | .tcpSetp src, s => s.storePbuf (s.srcData src)
  | .tcpSetps src, s => s.storePbuf (withSize (s.srcData src))
  | .rxPush, s => { s with rxq := s.rxq ++ s.ibSeq }
  | .rxPop, s => { s.storeIbuf (s.rxq.take (flen s.rxq)) with rxq := s.rxq.drop (flen s.rxq) }
  | .rxClr, s => { s with rxq := [] }

/-- A command raises the code of its checks over the state it began in, or it is done with its writes. -/
theorem exec_eq_elim (i : Instr) (s : State) : exec i s = (failure i s).elim (done (writes i s)) (raise · s) := by
  cases i with
  | ibPush | obMov | rtuEnc | tcpDec | tcpEnc | tcpSetp | tcpSetps | rxPush | rxPop =>
    simp only [exec, execIbPush, execObMov, execRtuEnc, execTcpDec, execTcpEnc, execTcpSetp, execTcpSetps, execRxPush,
      execRxPop, failure]
    split_ifs <;> rfl
  | rtuDecq =>
    simp only [exec, execRtuDecq, failure]
    cases s.rtuError 4 <;> rfl
  | rtuDecr =>
    simp only [exec, execRtuDecr, failure]
    cases s.rtuError 5 <;> rfl
  | _ => rfl

section
variable {i : Instr} {s t : State}

theorem exec_of_failure {e : Err} (failed : failure i s = some e) : exec i s = .next (s.setErr e) := by
  rw [exec_eq_elim, failed]
  rfl

theorem exec_of_pass (passed : failure i s = none) : exec i s = .next ((writes i s).setErr .ok) := by
  rw [exec_eq_elim, passed]
  rfl

/-- The two ways a command ends. -/
theorem exec_next (ran : exec i s = .next t) :
    (∃ e, failure i s = some e ∧ t = s.setErr e) ∨ (failure i s = none ∧ t = (writes i s).setErr .ok) := by
  cases h : failure i s with
  | some e => exact .inl ⟨e, rfl, (Host.Outcome.next.inj ((exec_of_failure h).symm.trans ran)).symm⟩
  | none => exact .inr ⟨rfl, (Host.Outcome.next.inj ((exec_of_pass h).symm.trans ran)).symm⟩

/-! ### The codes of each command (R202) -/

/-- The checks of a decode raise one of three codes (R206). -/
theorem rtuError_mem {overhead : Nat} {e : Err} (failed : s.rtuError overhead = some e) :
    e ∈ [.short, .crc, .overflow] := by
  obtain ⟨-, h⟩ | ⟨-, -, h⟩ | ⟨-, -, -, h⟩ | ⟨-, -, -, h⟩ := rtuError_cases s overhead <;>
    cases h.symm.trans failed <;> decide

theorem failure_mem_possibleErr {e : Err} (failed : failure i s = some e) : e ∈ possibleErr i := by
  cases i with
  | rtuDecq | rtuDecr => exact List.mem_cons_of_mem _ (rtuError_mem failed)
  | ibPush | obMov | rtuEnc | tcpDec | tcpEnc | tcpSetp | tcpSetps | rxPush | rxPop =>
    simp only [failure] at failed
    split_ifs at failed <;> cases failed <;> simp [possibleErr]
  | _ => cases failed

theorem ok_mem_possibleErr (i : Instr) : .ok ∈ possibleErr i := by
  cases i <;> exact List.mem_cons_self

end

/-- Settles O32: a command raises a code of its checks or is done, which is E_OK. -/
theorem everyCommandEndsWithOneOfItsCodes : Obligations.EveryCommandEndsWithOneOfItsCodes := by
  intro i s
  cases h : failure i s with
  | some e => exact ⟨_, exec_of_failure h, failure_mem_possibleErr h⟩
  | none => exact ⟨_, exec_of_pass h, ok_mem_possibleErr i⟩

theorem exists_exec_next (i : Instr) (s : State) : ∃ t, exec i s = .next t :=
  let ⟨t, ran, _⟩ := everyCommandEndsWithOneOfItsCodes i s
  ⟨t, ran⟩

/-! ### What a command leaves alone (R24 to R38) -/

/-- Settles O34: a code raised leaves every register and buffer, and of a command that is done the writes are known. -/
theorem onlyListedCommandsWriteEachRegister : Obligations.OnlyListedCommandsWriteEachRegister := by
  intro i s t ran notReset
  obtain ⟨e, -, rfl⟩ | ⟨-, rfl⟩ := exec_next ran
  · simp
  · cases i with
    | reset => exact absurd rfl notReset
    | _ => simp [writes, Instr.mnemonic]

end Sys2Proof.Machine
end

section
/-! What a step can do, said once: the effect of each host event on the block, and from it what every step keeps
(20_memory.md R51 to R58, 70_reset_and_hazards.md R220). -/

namespace Sys2Proof.Machine

/-! ### The effect of one event -/

/-- `Served s e t`: event `e`, taken off the host's list in state `s`, leaves `t`. -/
inductive Served (s : State) : HostEvent → State → Prop where
  /-- A read that answers, or a register write that writes no length, no status and no command. -/
  | unchecked (a : Access) (crc tid pid tlen : Half) (addr fn size : Byte) (reply : Reply) : Served s (.access a)
    { s with crc := crc, tid := tid, pid := pid, tlen := tlen, addr := addr, fn := fn, size := size, reply := reply }
  | busError (a : Access) (reply : Reply) : Served s (.access a) { s.busError with reply := reply }
  | status (d : Word) : Served s (.access (.write4 (regOffset .status) d))
    { s with berr := s.berr && !d.getLsbD 16 }
  | iblen (d : Word) (fits : d.toNat ≤ s.params.ibufCap) : Served s (.access (.write4 (regOffset .iblen) d))
    { s with iblen := d.setWidth 18 }
  | plen (d : Word) (fits : d.toNat ≤ s.params.pbufCap) : Served s (.access (.write4 (regOffset .plen) d))
    { s with plen := d.setWidth 18 }
  | illegal (w : Word) : Served s (.access (.write4 (regOffset .cmd) w)) (s.setErr .illegal)
  | raised (i : Instr) (e : Err) : Served s (.access (.write4 (regOffset .cmd) (encode i))) (s.setErr e)
  | completed (i : Instr) (passed : failure i s = none) :
    Served s (.access (.write4 (regOffset .cmd) (encode i))) ((writes i s).setErr .ok)
  | ibuf (a : Addr) (v : Byte) (i : Nat) (inside : i < s.params.ibufCap) : Served s (.access (.write1 a v))
    { s with ibuf := s.ibuf.setByte i v }
  | pbuf (a : Addr) (v : Byte) (i : Nat) (inside : i < s.params.pbufCap) : Served s (.access (.write1 a v))
    { s with pbuf := s.pbuf.setByte i v }
  | assertReset : Served s .assertReset { s.applyReset with resetPin := true }
  | releaseReset : Served s .releaseReset { s with resetPin := false }

/-- An access that leaves the state as it is. -/
theorem Served.nothing (s : State) (a : Access) : Served s (.access a) s :=
  .unchecked a s.crc s.tid s.pid s.tlen s.addr s.fn s.size s.reply

section
variable {s t : State}

theorem served_of_runCommand {w : Word} (ran : runCommand w s = .next t) :
    Served s (.access (.write4 (regOffset .cmd) w)) t := by
  cases h : decode w with
  | error e =>
    obtain rfl := raise_next.1 ((runCommand_of_decode_error h s).symm.trans ran)
    exact .illegal w
  | ok i =>
    obtain rfl := encodeOfDecodeIsTheWord w i h
    obtain ⟨e, -, rfl⟩ | ⟨passed, rfl⟩ := exec_next ((runCommand_of_decode_ok h s).symm.trans ran)
    · exact .raised i e
    · exact .completed i passed

theorem served_of_writeReg {d : Word} {r : Reg} (wrote : writeReg d s r = .next t) :
    Served s (.access (.write4 (regOffset r) d)) t := by
  cases r with
  | cmd => exact served_of_runCommand wrote
  | status => cases wrote; exact .status d
  | iblen =>
    cases wrote
    split
    · next fits => exact .iblen d fits
    · exact .nothing s _
  | plen =>
    cases wrote
    split
    · next fits => exact .plen d fits
    · exact .nothing s _
  | id | oblen | rxlen | ibcap | obcap | pbcap | rxcap => cases wrote; exact .nothing s _
  | crc | tid | pid | tlen | addr | fn | size => cases wrote; exact .unchecked ..

theorem served_writeWin (a : Addr) (v : Byte) {w : Win} {i : Nat} (reaches : winAt s.params a = some (w, i)) :
    Served s (.access (.write1 a v)) (writeWin v s i w) := by
  obtain ⟨-, -, inside⟩ := winAt_eq_some.1 reaches
  cases w with
  | ibuf => exact .ibuf a v i inside
  | pbuf => exact .pbuf a v i inside
  | obuf | rxq => exact .busError _ s.reply

theorem served_of_hostAccess {a : Access} (h : hostAccess s a = .next t) : Served s (.access a) t := by
  cases a with
  | read4 a =>
    simp only [hostAccess] at h
    split at h <;> cases h
    · exact .unchecked ..
    · exact .busError ..
  | write4 a d =>
    simp only [hostAccess] at h
    split at h
    · next r reaches =>
      obtain rfl := regAt_eq_some.1 reaches
      exact served_of_writeReg h
    · cases h
      exact .busError _ s.reply
  | read1 a =>
    simp only [hostAccess] at h
    split at h <;> cases h
    · exact .unchecked ..
    · exact .busError ..
  | write1 a v =>
    simp only [hostAccess] at h
    split at h <;> cases h
    · next reaches => exact served_writeWin a v reaches
    · exact .busError _ s.reply

theorem served_of_serve {e : HostEvent} (h : serve s e = .next t) : Served s e t := by
  cases e with
  | access a =>
    simp only [serve] at h
    split at h
    · cases h
    · exact served_of_hostAccess h
  | assertReset => cases h; exact .assertReset
  | releaseReset => cases h; exact .releaseReset

/-- A step serves the oldest event, or keeps the state where there is none. -/
theorem step_next (h : step s = .next t) :
    t = s ∨ ∃ e rest, s.pending = e :: rest ∧ Served (s.advance rest) e t := by
  unfold step at h
  split at h
  · cases h; exact .inl rfl
  · next e rest pending => exact .inr ⟨e, rest, pending, served_of_serve h⟩

end

/-! ### Constants (R22, R36) -/

theorem writes_params (i : Instr) (s : State) : (writes i s).params = s.params := by
  cases i <;> rfl

theorem Served.params {s t : State} {e : HostEvent} (h : Served s e t) : t.params = s.params := by
  cases h with
  | completed i => exact writes_params i s
  | _ => rfl

theorem step_params {s t : State} (h : step s = .next t) : t.params = s.params := by
  obtain rfl | ⟨e, rest, -, served⟩ := step_next h
  · rfl
  · exact served.params

/-- Settles O38: no event writes the capacities, and their registers and ID read nothing else. -/
theorem capacitiesAndIdNeverChange : Obligations.CapacitiesAndIdNeverChange := by
  intro s t h
  have kept := step_params h
  simp only [readReg, kept, and_self]

/-! ### The bus error bit (R24, R205) -/

theorem writes_berr (i : Instr) (s : State) : i = .reset ∨ (writes i s).berr = s.berr := by
  cases i with
  | reset => exact .inl rfl
  | _ => exact .inr rfl

/-- Settles O39: of the events served, the two resets and a write to STATUS are those that can clear BERR. -/
theorem berrIsSticky : Obligations.BerrIsSticky := by
  intro s t set h clear
  obtain rfl | ⟨e, rest, pending, served⟩ := step_next h
  · cases set.symm.trans clear
  rw [pending]
  cases served with
  | assertReset => exact .inl ⟨rest, rfl⟩
  | completed i =>
    obtain rfl | kept := writes_berr i (s.advance rest)
    · exact .inr (.inl ⟨rest, rfl⟩)
    · cases (kept.trans set).symm.trans clear
  | status d =>
    have bit : (s.berr && !d.getLsbD 16) = false := clear
    rw [set] at bit
    exact .inr (.inr ⟨d, rest, rfl, by simpa using bit⟩)
  | busError => cases clear
  | _ => cases set.symm.trans clear

/-! ### The invariant (R6, R26 to R28, R37, R38) -/

namespace State.Inv

variable {s : State}

/-- The invariant does not speak of the other fields. -/
theorem others (inv : s.Inv) (err : Err) (berr : Bool) (crc tid pid tlen : Half) (addr fn size : Byte)
    (pending : List HostEvent) (pin : Bool) (reply : Reply) :
    ({ s with
      err := err, berr := berr, crc := crc, tid := tid, pid := pid, tlen := tlen, addr := addr, fn := fn,
      size := size, pending := pending, resetPin := pin, reply := reply } : State).Inv :=
  ⟨inv.legal, inv.iblen, inv.oblen, inv.plen, inv.rxlen, inv.ibuf, inv.obuf, inv.pbuf⟩

theorem setIblen (inv : s.Inv) {n : Len} (fits : n.toNat ≤ s.params.ibufCap) :
    ({ s with iblen := n } : State).Inv :=
  ⟨inv.legal, fits, inv.oblen, inv.plen, inv.rxlen, inv.ibuf, inv.obuf, inv.pbuf⟩

theorem setPlen (inv : s.Inv) {n : Len} (fits : n.toNat ≤ s.params.pbufCap) :
    ({ s with plen := n } : State).Inv :=
  ⟨inv.legal, inv.iblen, inv.oblen, fits, inv.rxlen, inv.ibuf, inv.obuf, inv.pbuf⟩

theorem setRxq (inv : s.Inv) {q : List Byte} (fits : q.length ≤ s.params.rxqCap) :
    ({ s with rxq := q } : State).Inv :=
  ⟨inv.legal, inv.iblen, inv.oblen, inv.plen, fits, inv.ibuf, inv.obuf, inv.pbuf⟩

theorem setIbufByte (inv : s.Inv) {i : Nat} (inside : i < s.params.ibufCap) (v : Byte) :
    ({ s with ibuf := s.ibuf.setByte i v } : State).Inv :=
  ⟨inv.legal, inv.iblen, inv.oblen, inv.plen, inv.rxlen,
    ⟨Memory.wf_setByte inv.ibuf.1 i v, Memory.within_setByte inv.ibuf.2 inside v⟩, inv.obuf, inv.pbuf⟩

theorem setPbufByte (inv : s.Inv) {i : Nat} (inside : i < s.params.pbufCap) (v : Byte) :
    ({ s with pbuf := s.pbuf.setByte i v } : State).Inv :=
  ⟨inv.legal, inv.iblen, inv.oblen, inv.plen, inv.rxlen, inv.ibuf, inv.obuf,
    ⟨Memory.wf_setByte inv.pbuf.1 i v, Memory.within_setByte inv.pbuf.2 inside v⟩⟩

end State.Inv

/-- A decode that passes its checks has a payload that fits. -/
theorem fits_of_rtuError_none {s : State} {overhead : Nat} (passed : s.rtuError overhead = none) :
    s.iblen.toNat - overhead ≤ s.params.pbufCap := by
  obtain ⟨-, run⟩ | ⟨-, -, run⟩ | ⟨-, -, -, run⟩ | ⟨-, -, fits, -⟩ := rtuError_cases s overhead
  · cases run.symm.trans passed
  · cases run.symm.trans passed
  · cases run.symm.trans passed
  · exact fits

/-- A length that fits a capacity loses nothing in a length register. -/
theorem toNat_setWidth_18 {d : Word} (h : d.toNat < 262144) : (d.setWidth 18).toNat = d.toNat := by
  rw [BitVec.toNat_setWidth]
  exact Nat.mod_eq_of_lt h

/-- A command whose checks pass keeps the invariant: each check bounds the length or index it writes. -/
theorem writes_inv {s : State} {i : Instr} (inv : s.Inv) (passed : failure i s = none) : (writes i s).Inv := by
  cases i with
  | nop => exact inv
  | reset => exact inv.applyReset
  | ibClr => exact inv.setIblen (Nat.zero_le _)
  | crcInit | crcByte | crcBuf => exact inv.others ..
  | rxClr => exact inv.setRxq (Nat.zero_le _)
  | ibPush b =>
    have room : s.iblen.toNat ≠ s.params.ibufCap := by simpa [failure] using passed
    have inside : s.iblen.toNat < s.params.ibufCap := Nat.lt_of_le_of_ne inv.iblen room
    exact (inv.setIbufByte inside b).setIblen ((inv.toNat_len18_iblen_succ room).trans_le inside)
  | obMov =>
    have fits : s.oblen.toNat ≤ s.params.ibufCap := by simpa [failure] using passed
    exact inv.storeIbuf ((State.length_obSeq s).trans_le fits)
  | rtuEnc =>
    have fits : s.plen.toNat + 4 ≤ s.params.obufCap := by simpa [failure] using passed
    exact inv.storeObuf ((length_rtuFrame s).trans_le fits)
  | rtuDecq =>
    exact State.Inv.storePbuf (inv.others ..) ((length_rtuPayload s 2).trans_le (fits_of_rtuError_none passed))
  | rtuDecr =>
    exact State.Inv.storePbuf (inv.others ..) ((length_rtuPayload s 3).trans_le (fits_of_rtuError_none passed))
  | tcpDec =>
    have agrees : s.iblen.toNat = (be16 (byteOf s.ibSeq 4) (byteOf s.ibSeq 5)).toNat + 6 := by
      simp only [failure] at passed
      split_ifs at passed with _ differs
      exact not_not.1 differs
    have field := (be16 (byteOf s.ibSeq 4) (byteOf s.ibSeq 5)).isLt
    have payload := length_slice s.ibSeq 8 s.iblen.toNat (State.length_ibSeq s).ge
    obtain ⟨-, -, ⟨pbufMin, -⟩, -⟩ := inv.legal
    refine State.Inv.storePbuf (inv.others ..) (payload.trans_le ?_)
    show s.iblen.toNat - 8 ≤ s.params.pbufCap
    omega
  | tcpEnc =>
    have fits : s.plen.toNat + 8 ≤ s.params.obufCap := by
      simp only [failure] at passed
      split_ifs at passed with _ exceeds
      exact Nat.not_lt.1 exceeds
    exact State.Inv.others (inv.storeObuf ((length_tcpFrame s _).trans_le fits)) ..
  | tcpSetp src =>
    have fits : (s.srcData src).length ≤ s.params.pbufCap := by simpa [failure] using passed
    exact inv.storePbuf fits
  | tcpSetps src =>
    have fits : (s.srcData src).length + 1 ≤ s.params.pbufCap := by
      simp only [failure] at passed
      split_ifs at passed with _ exceeds
      exact Nat.not_lt.1 exceeds
    exact inv.storePbuf fits
  | rxPush =>
    have fits : s.rxq.length + s.iblen.toNat ≤ s.params.rxqCap := by simpa [failure] using passed
    exact inv.setRxq (by rwa [List.length_append, State.length_ibSeq])
  | rxPop =>
    have fits : flen s.rxq ≤ s.params.ibufCap := by
      simp only [failure] at passed
      split_ifs at passed with _ exceeds
      exact Nat.not_lt.1 exceeds
    have shorter : (s.rxq.drop (flen s.rxq)).length ≤ s.params.rxqCap :=
      (List.drop_sublist ..).length_le.trans inv.rxlen
    exact State.Inv.setRxq (inv.storeIbuf ((List.length_take_le ..).trans fits)) shorter

theorem Served.inv {s t : State} {e : HostEvent} (inv : s.Inv) (h : Served s e t) : t.Inv := by
  obtain ⟨ibufCap, -, pbufCap, -⟩ := inv.caps_fit
  cases h with
  | iblen d fits => exact inv.setIblen ((toNat_setWidth_18 (fits.trans_lt ibufCap)).trans_le fits)
  | plen d fits => exact inv.setPlen ((toNat_setWidth_18 (fits.trans_lt pbufCap)).trans_le fits)
  | completed i passed => exact State.Inv.others (writes_inv inv passed) ..
  | ibuf a v i inside => exact inv.setIbufByte inside v
  | pbuf a v i inside => exact inv.setPbufByte inside v
  | assertReset => exact State.Inv.others inv.applyReset ..
  | unchecked | busError | status | illegal | raised | releaseReset => exact inv.others ..

/-- Settles O37: whatever event a step serves, its writes stay within the bounds its checks compare to. -/
theorem stepKeepsWellFormedStates : Obligations.StepKeepsWellFormedStates := by
  intro s t inv h
  obtain rfl | ⟨e, rest, -, served⟩ := step_next h
  · exact inv
  · exact served.inv (inv.hostSide rest s.resetPin .none)

/-! ### Steps of the reset input, and the state after reset (R5, R220) -/

/-- Settles O7: the block is passive. -/
theorem idleBlockKeepsItsState : Obligations.IdleBlockKeepsItsState := fun _ => rfl

/-- STATUS reads 0 with E_OK, no bus error and an empty queue (R24). -/
theorem State.statusWord_eq_zero {s : State} (ok : s.err = .ok) (clear : s.berr = false) (empty : s.rxq = []) :
    s.statusWord = 0 := by
  rw [statusWord, fe, rxav_eq_false_of_rxq_nil empty, ok, clear]
  decide

/-- Settles O8: the step applies the reset, whose fields are the reset table's. -/
theorem resetInputTakesTheResetState : Obligations.ResetInputTakesTheResetState := by
  intro s rest
  refine ⟨_, step_assertReset s rest, ?_⟩
  simp [State.statusWord_eq_zero]

/-- Settles O11: the default capacities are legal, and every length and buffer is empty. -/
theorem resetStateIsWellFormed : Obligations.ResetStateIsWellFormed := by
  have empty : Memory.wf [] ∧ Memory.within [] State.reset.params.ibufCap := ⟨Memory.wf_nil, fun _ h => nomatch h⟩
  refine ⟨⟨by decide, ?_, ?_, ?_, ?_, empty, empty, empty⟩, rfl, State.statusWord_eq_zero rfl rfl rfl, rfl⟩
  all_goals exact Nat.zero_le _

/-- Every register write answers a next state (R55, R58). -/
theorem exists_writeReg_next (d : Word) (s : State) (r : Reg) : ∃ t, writeReg d s r = .next t := by
  cases r with
  | cmd =>
    obtain ⟨e, run⟩ | ⟨u, run, -⟩ := runCommand_ends d s
    exacts [⟨_, run⟩, ⟨_, run⟩]
  | _ => exact ⟨_, rfl⟩

/-- Every access answers a next state, a bus error or not (R55, R58). -/
theorem exists_hostAccess_next (s : State) (a : Access) : ∃ t, hostAccess s a = .next t := by
  cases a with
  | write4 a d =>
    cases reaches : regAt a with
    | some r => simpa only [hostAccess, reaches] using exists_writeReg_next d s r
    | none => exact ⟨s.busError, by simp only [hostAccess, reaches]⟩
  | read4 | read1 | write1 =>
    simp only [hostAccess]
    split <;> exact ⟨_, rfl⟩

/-- Settles O10: the level of the reset input alone decides whether an access is served. -/
theorem noAccessStepDuringReset : Obligations.NoAccessStepDuringReset := by
  intro s a rest
  refine ⟨rfl, ?_, rfl⟩
  rw [step_access { s with resetPin := false } a rest rfl]
  exact exists_hostAccess_next _ a

end Sys2Proof.Machine
end

section
/-! The CRC engine beyond one step (40_crc.md): sequences of CRC.BYTE, the check of a received sequence as a residue of
0, and the table step as eight one-bit steps. -/

namespace Sys2Proof.Machine

/-! ### A sequence of CRC.BYTE (R104, R105) -/

theorem execSeq_cons {i : Instr} {s t : State} (ran : exec i s = .next t) (is : List Instr) :
    execSeq (i :: is) s = execSeq is t := by
  simp only [execSeq, ran]

theorem execSeq_crcByte (l : List Byte) (s : State) (c : Half) :
    execSeq (l.map .crcByte) { s with crc := c, err := .ok } =
      .next { s with crc := l.foldl crcStep c, err := .ok } := by
  induction l generalizing c with
  | nil => rfl
  | cons b l ih => exact (execSeq_cons (exec_crcByte b _) _).trans (ih (crcStep c b))

theorem execSeq_crcInit_crcByte (l : List Byte) (s : State) :
    execSeq (.crcInit :: l.map .crcByte) s = .next { s with crc := checksum l, err := .ok } :=
  (execSeq_cons (exec_crcInit s) _).trans (execSeq_crcByte l s 0xFFFF)

/-- Settles O16: the commands fold the bytes from the seed, and a sequence with its own CRC behind it folds to 0. -/
theorem crcBytesAccumulateTheChecksum : Obligations.CrcBytesAccumulateTheChecksum := by
  intro s l
  refine ⟨execSeq_crcInit_crcByte l s, (execSeq_crcInit_crcByte _ s).trans ?_⟩
  have residue : checksum (l ++ [lo8 (checksum l), hi8 (checksum l)]) = 0 := checksum_append_crcBytes l
  rw [residue]

/-! ### The check as a residue (R103) -/

/-- Two bytes fold an accumulator to 0 exactly when they are that accumulator, low byte first. -/
theorem foldl_crcStep_pair_eq_zero {c : Half} {l h : Byte} : [l, h].foldl crcStep c = 0 ↔ c = be16 h l := by
  have own : [l, h].foldl crcStep (be16 h l) = 0 := by
    simpa [crcBytes] using foldl_crcStep_crcBytes (be16 h l)
  constructor
  · intro zero
    exact foldl_crcStep_inj [l, h] (zero.trans own.symm)
  · rintro rfl
    exact own

/-- The last two bytes of a sequence, behind the others. -/
theorem take_append_last_two {b : List Byte} (long : 2 ≤ b.length) :
    b.take (b.length - 2) ++ [byteOf b (b.length - 2), byteOf b (b.length - 1)] = b := by
  have rest : b.drop (b.length - 2) = [byteOf b (b.length - 2), byteOf b (b.length - 1)] := by
    refine eq_of_byteOf (by simp; omega) fun i hi => ?_
    obtain rfl | rfl : i = 0 ∨ i = 1 := by simp at hi; omega
    · rw [byteOf_drop, Nat.zero_add]; rfl
    · rw [byteOf_drop, show 1 + (b.length - 2) = b.length - 1 by omega]; rfl
  rw [← rest, List.take_append_drop]

/-- The trailing bytes are the checksum of the others exactly when the whole sequence folds to 0. -/
theorem crcGood_iff_checksum_eq_zero {b : List Byte} (long : 2 ≤ b.length) : crcGood b = true ↔ checksum b = 0 := by
  rw [crcGood, beq_iff_eq, ← foldl_crcStep_pair_eq_zero, ← checksum_append, take_append_last_two long]

theorem crcGood_append_crcBytes (m : List Byte) : crcGood (m ++ crcBytes (checksum m)) = true :=
  (crcGood_iff_checksum_eq_zero (by simp [crcBytes])).2 (checksum_append_crcBytes m)

/-! ### One changed byte (41_rtu.md, corruption) -/

/-- The checksum of a sequence tells the values of any one of its bytes apart: a step is one-to-one in the byte, and the
steps after it are one-to-one in the accumulator. -/
theorem checksum_set_inj {b : List Byte} {k : Nat} {v w : Byte} (inside : k < b.length)
    (h : checksum (b.set k v) = checksum (b.set k w)) : v = w := by
  simp only [List.set_eq_take_append_cons_drop, if_pos inside, checksum_append, List.foldl_cons] at h
  exact crcStep_inj_byte (foldl_crcStep_inj _ h)

theorem Memory.seq_setByte (m : Memory) (n k : Nat) (v : Byte) :
    (m.setByte k v).seq n = (m.seq n).set k v := by
  refine eq_of_byteOf (by simp) fun i hi => ?_
  rw [length_seq] at hi
  rw [byteOf_seq _ _ _ hi, byteAt_setByte, byteOf, List.getD_eq_getElem _ _ (by simpa), List.getElem_set]
  simp only [eq_comm (a := k)]
  split
  · rfl
  · simp [seq]

theorem Memory.set_seq_byteAt (m : Memory) (n k : Nat) : (m.seq n).set k (m.byteAt k) = m.seq n := by
  rw [← seq_setByte]
  refine seq_congr fun i _ => ?_
  rw [byteAt_setByte]
  split
  · next same => rw [same]
  · rfl

/-- Settles O23: a right CRC is a checksum of 0 over the whole input, which one changed byte cannot keep. -/
theorem oneChangedByteIsACrcError : Obligations.OneChangedByteIsACrcError := by
  intro s k v long inside good changed s'
  have twoBytes : 2 ≤ s.iblen.toNat := by omega
  have input : s'.ibSeq = s.ibSeq.set k v := Memory.seq_setByte s.ibuf _ k v
  have own : s.ibSeq.set k (s.ibuf.byteAt k) = s.ibSeq := Memory.set_seq_byteAt s.ibuf _ k
  have bad : ¬crcGood s'.ibSeq = true := by
    intro good'
    rw [input, crcGood_iff_checksum_eq_zero (by simpa)] at good'
    rw [crcGood_iff_checksum_eq_zero (by simpa), ← own] at good
    exact changed (checksum_set_inj (by simpa) (good'.trans good.symm))
  have detected (overhead : Nat) : s'.rtuError overhead = some .crc := rtuError_crc long bad
  exact ⟨execRtuDecq_of_error (detected 4), execRtuDecr_of_error (detected 5)⟩

/-! ### One-bit steps (R100, R107) -/

theorem crcEntry_low_eq_crcBits : (List.range 128).all
    (fun n => crcEntry (BitVec.ofNat 8 n) == crcBits 8 (BitVec.ofNat 16 n)) = true := by decide +kernel

theorem crcEntry_high_eq_crcBits : (List.range 128).all
    (fun n => crcEntry (BitVec.ofNat 8 (128 + n)) == crcBits 8 (BitVec.ofNat 16 (128 + n))) = true := by decide +kernel

/-- Each table entry is eight one-bit steps from its index. -/
theorem crcEntry_eq_crcBits (i : Byte) : crcEntry i = crcBits 8 (i.setWidth 16) := by
  have hi := i.isLt
  rcases Nat.lt_or_ge i.toNat 128 with h | h
  · simpa using List.all_eq_true.1 crcEntry_low_eq_crcBits i.toNat (by simpa using h)
  · have := List.all_eq_true.1 crcEntry_high_eq_crcBits (i.toNat - 128) (by simp; omega)
    rw [Nat.add_sub_cancel' h] at this
    simpa using this

/-- A one-bit step shifts, and adds the polynomial where the bit shifted out is 1. -/
theorem crcBit_eq_xor (c : Half) : crcBit c = (c >>> 1) ^^^ if c.getLsbD 0 then 0xA001 else 0 := by
  unfold crcBit
  split
  · rfl
  · exact BitVec.xor_zero.symm

/-- A one-bit step is linear over XOR. -/
theorem crcBit_xor (c d : Half) : crcBit (c ^^^ d) = crcBit c ^^^ crcBit d := by
  have poly : (if (c ^^^ d).getLsbD 0 then 0xA001 else 0 : Half) =
      (if c.getLsbD 0 then 0xA001 else 0) ^^^ (if d.getLsbD 0 then 0xA001 else 0) := by
    rw [BitVec.getLsbD_xor]
    cases c.getLsbD 0 <;> cases d.getLsbD 0 <;> rfl
  simp only [crcBit_eq_xor, poly, BitVec.ushiftRight_xor_distrib]
  ac_rfl

theorem crcBits_xor (n : Nat) (c d : Half) : crcBits n (c ^^^ d) = crcBits n c ^^^ crcBits n d := by
  induction n generalizing c d with
  | zero => rfl
  | succ n ih => exact (congrArg (crcBits n) (crcBit_xor c d)).trans (ih _ _)

/-- Steps over bits that are 0 only shift. -/
theorem crcBits_of_low_clear {n : Nat} {c : Half} (clear : ∀ i < n, c.getLsbD i = false) :
    crcBits n c = c >>> n := by
  induction n generalizing c with
  | zero => rfl
  | succ n ih =>
    have first : crcBit c = c >>> 1 := if_neg (by rw [clear 0 n.succ_pos]; decide)
    have later : ∀ i < n, (c >>> 1).getLsbD i = false := fun i hi => by
      rw [BitVec.getLsbD_ushiftRight]
      exact clear (1 + i) (by omega)
    rw [crcBits, first, ih later, ← BitVec.shiftRight_add, Nat.add_comm]

theorem setWidth_byte_shiftRight (b : Byte) : b.setWidth 16 >>> 8 = 0 := by
  apply BitVec.eq_of_toNat_eq
  simp [Nat.shiftRight_eq_div_pow]
  omega

/-- Eight one-bit steps: the low byte selects a table entry, and the high byte shifts down. -/
theorem crcBits_eight (c : Half) : crcBits 8 c = (c >>> 8) ^^^ crcEntry (lo8 c) := by
  have clear : ∀ i < 8, (c ^^^ (lo8 c).setWidth 16).getLsbD i = false := fun i hi => by
    simp [lo8, hi]
    omega
  calc crcBits 8 c
      = crcBits 8 (c ^^^ (lo8 c).setWidth 16 ^^^ (lo8 c).setWidth 16) := by
        rw [BitVec.xor_assoc, BitVec.xor_self, BitVec.xor_zero]
    _ = crcBits 8 (c ^^^ (lo8 c).setWidth 16) ^^^ crcEntry (lo8 c) := by rw [crcBits_xor, crcEntry_eq_crcBits]
    _ = (c >>> 8) ^^^ crcEntry (lo8 c) := by
        rw [crcBits_of_low_clear clear, BitVec.ushiftRight_xor_distrib, setWidth_byte_shiftRight]
        simp

/-- Settles O18: one-bit steps are linear, so the high byte and the table index can be stepped apart; the entries are
checked one by one. -/
theorem tableStepIsEightBitSteps : Obligations.TableStepIsEightBitSteps := by
  refine ⟨crcEntry_eq_crcBits, fun c b => ?_⟩
  have high : (c ^^^ b.setWidth 16) >>> 8 = c >>> 8 := by
    rw [BitVec.ushiftRight_xor_distrib, setWidth_byte_shiftRight]
    simp
  rw [crcBits_eight, high]
  rfl

end Sys2Proof.Machine
end

section
/-! The round trips of the two codecs (41_rtu.md, 42_tcp.md): what an encoder leaves in the output buffer, OB.MOV puts
in the input buffer, where the decoder finds it. -/

namespace Sys2Proof.Machine

/-! ### Sequences through the buffers -/

theorem execSeq_singleton (i : Instr) (s : State) : execSeq [i] s = exec i s := by
  obtain ⟨t, ran⟩ := exists_exec_next i s
  rw [execSeq_cons ran, ran, execSeq]

section
variable {s : State} {d : List Byte}

/-- A sequence stored in a buffer is read back whole when its length fits the length register. -/
theorem State.ibSeq_storeIbuf (fits : d.length < 262144) : (s.storeIbuf d).ibSeq = d := by
  rw [ibSeq, storeIbuf_iblen, toNat_len18 fits, storeIbuf_ibuf, Memory.seq_store]

theorem State.obSeq_storeObuf (fits : d.length < 262144) : (s.storeObuf d).obSeq = d := by
  rw [obSeq, storeObuf_oblen, toNat_len18 fits, storeObuf_obuf, Memory.seq_store]

theorem State.pbSeq_storePbuf (fits : d.length < 262144) : (s.storePbuf d).pbSeq = d := by
  rw [pbSeq, storePbuf_plen, toNat_len18 fits, storePbuf_pbuf, Memory.seq_store]

/-- OB.MOV, by the sequence it moves. -/
theorem exec_obMov_of_obSeq (output : s.obSeq = d) (fits : d.length ≤ s.params.ibufCap) :
    exec .obMov s = .next ((s.storeIbuf d).setErr .ok) := by
  have length : s.oblen.toNat = d.length := by rw [← output, State.length_obSeq]
  exact output ▸ execObMov_of_fits (length.trans_le fits)

end

/-! ### RTU (R120 to R123) -/

section
variable {s : State}

theorem byteOf_rtuFrame_payload {j : Nat} (inside : j < s.plen.toNat) :
    byteOf s.rtuFrame (j + 2) = s.pbuf.byteAt j := by
  show byteOf ([s.addr, s.fn] ++ s.pbSeq ++ crcBytes _) (j + 2) = _
  rw [byteOf_append, if_pos (by simp; omega), byteOf_append, if_neg (by simp)]
  exact Memory.byteOf_seq s.pbuf _ _ inside

theorem crcGood_rtuFrame (s : State) : crcGood s.rtuFrame = true := crcGood_append_crcBytes _

/-- RTU.ENC and OB.MOV leave the frame in the input buffer. -/
theorem execSeq_rtuEnc_obMov (inv : s.Inv) (output : s.plen.toNat + 4 ≤ s.params.obufCap)
    (input : s.plen.toNat + 4 ≤ s.params.ibufCap) :
    ∃ u, (∀ i, execSeq [.rtuEnc, .obMov, i] s = exec i u) ∧ u.params = s.params ∧ u.ibSeq = s.rtuFrame ∧
      u.iblen.toNat = s.plen.toNat + 4 := by
  obtain ⟨ibufCap, -⟩ := inv.caps_fit
  have encoded : exec .rtuEnc s = .next ((s.storeObuf s.rtuFrame).setErr .ok) := by
    obtain ⟨exceeds, -⟩ | ⟨-, run⟩ := execRtuEnc_cases s
    · omega
    · exact run
  have inRange : s.rtuFrame.length < 262144 := (length_rtuFrame s).trans_lt (input.trans_lt ibufCap)
  have moved := exec_obMov_of_obSeq (s := (s.storeObuf s.rtuFrame).setErr .ok) (State.obSeq_storeObuf inRange)
    ((length_rtuFrame s).trans_le input)
  exact ⟨_, fun i => (execSeq_cons encoded _).trans ((execSeq_cons moved _).trans (execSeq_singleton i _)), rfl,
    State.ibSeq_storeIbuf inRange, (toNat_len18 inRange).trans (length_rtuFrame s)⟩

section
variable {u : State} (frame : u.ibSeq = s.rtuFrame) (length : u.iblen.toNat = s.plen.toNat + 4)
include frame length

/-- The payload bytes, where the frame has been moved to. -/
theorem ibuf_byteAt_of_rtuFrame {j : Nat} (inside : j < s.plen.toNat) :
    u.ibuf.byteAt (j + 2) = s.pbuf.byteAt j := by
  rw [← byteOf_ibSeq (by omega), frame, byteOf_rtuFrame_payload inside]

/-- A frame with a payload byte passes the checks of a decode. -/
theorem rtuError_of_rtuFrame {overhead : Nat} (payload : 1 ≤ s.plen.toNat)
    (fits : s.plen.toNat + 4 - overhead ≤ u.params.pbufCap) : u.rtuError overhead = none :=
  rtuError_none (by omega) (frame ▸ crcGood_rtuFrame s) (by omega)

end

end

/-- Settles O22: the moved frame passes the checks when it has a payload byte, and each field is the byte the encoder
put there. -/
theorem rtuRoundTrip : Obligations.RtuRoundTrip := by
  intro s inv output input
  have payloadFits := inv.plen
  obtain ⟨u, run, params, frame, length⟩ := execSeq_rtuEnc_obMov inv output input
  simp only [run]
  refine ⟨fun payload => ?request, fun payload => ?response, fun empty => ?short⟩
  case request =>
    have passed : u.rtuError 4 = none := rtuError_of_rtuFrame frame length payload (by rw [params]; omega)
    refine ⟨_, execRtuDecq_of_none passed, rfl, congrArg (byteOf · 0) frame, congrArg (byteOf · 1) frame,
      BitVec.eq_of_toNat_eq ?_, fun j inside => ?_⟩
    · exact (toNat_len18_rtuPayload u 2).trans (by omega)
    · refine (byteAt_store_rtuPayload u _ 2 j).trans ?_
      rw [if_pos (by omega), ibuf_byteAt_of_rtuFrame frame length inside]
  case response =>
    have passed : u.rtuError 5 = none := rtuError_of_rtuFrame frame length payload (by rw [params]; omega)
    refine ⟨_, execRtuDecr_of_none passed, rfl, congrArg (byteOf · 0) frame, congrArg (byteOf · 1) frame,
      ?_, ?_, fun j inside => ?_⟩
    · exact (byteOf_ibSeq (by omega)).trans (ibuf_byteAt_of_rtuFrame frame length payload)
    · exact (congrArg (· + 1) (toNat_len18_rtuPayload u 3)).trans (by omega)
    · refine (byteAt_store_rtuPayload u _ 3 j).trans ?_
      rw [if_pos (by omega)]
      exact ibuf_byteAt_of_rtuFrame frame length (j := j + 1) (by omega)
  case short => exact ⟨_, execRtuDecq_of_error (rtuError_short (by omega)), rfl⟩

/-! ### TCP (R140, R141, R144) -/

/-- A sequence of 8 bytes or more is its first 8 bytes and the slice behind them. -/
theorem header_append_slice {b : List Byte} (long : 8 ≤ b.length) :
    [byteOf b 0, byteOf b 1, byteOf b 2, byteOf b 3, byteOf b 4, byteOf b 5, byteOf b 6, byteOf b 7] ++
      slice b 8 b.length = b := by
  have length := length_slice b 8 b.length le_rfl
  refine eq_of_byteOf (by rw [List.length_append, length]; simp; omega) fun i hi => ?_
  rw [byteOf_append]
  split
  · next header =>
    simp only [List.length_cons, List.length_nil] at header
    interval_cases i <;> rfl
  · next payload =>
    simp only [List.length_append, List.length_cons, List.length_nil] at hi payload ⊢
    rw [byteOf_slice (by omega), Nat.sub_add_cancel (by omega)]

/-- The frame of the fields TCP.DEC takes from a sequence is that sequence. -/
theorem tcpFrame_of_fields {u : State} {b : List Byte} {l : Half} (long : 8 ≤ b.length)
    (tid : u.tid = be16 (byteOf b 0) (byteOf b 1)) (pid : u.pid = be16 (byteOf b 2) (byteOf b 3))
    (field : l = be16 (byteOf b 4) (byteOf b 5)) (addr : u.addr = byteOf b 6) (fn : u.fn = byteOf b 7)
    (payload : u.pbSeq = slice b 8 b.length) : u.tcpFrame l = b := by
  rw [State.tcpFrame, tid, pid, field, addr, fn, payload]
  simp only [hi8_be16, lo8_be16]
  exact header_append_slice long

/-- A frame TCP.DEC accepts has a length field that agrees, and its fields make up the frame again: the length TCP.ENC
computes from the payload is that field. -/
theorem tcpFrame_of_accepted {s u : State} (decoded : exec .tcpDec s = .next u) (accepted : u.err = .ok) :
    8 ≤ s.iblen.toNat ∧ s.iblen.toNat ≤ 65541 ∧ u.params = s.params ∧ u.plen.toNat = s.iblen.toNat - 8 ∧
      u.tcpFrame (BitVec.ofNat 16 (u.plen.toNat + 2)) = s.ibSeq := by
  obtain ⟨-, run⟩ | ⟨-, -, run⟩ | ⟨long, agrees, run⟩ := execTcpDec_cases s
  · cases raise_next.1 (run.symm.trans decoded) ▸ accepted
  · cases raise_next.1 (run.symm.trans decoded) ▸ accepted
  obtain rfl := done_next.1 (run.symm.trans decoded)
  have field := (be16 (byteOf s.ibSeq 4) (byteOf s.ibSeq 5)).isLt
  have length := State.length_ibSeq s
  have payloadLength : (slice s.ibSeq 8 s.iblen.toNat).length = s.iblen.toNat - 8 := length_slice _ _ _ length.ge
  have inRange : (slice s.ibSeq 8 s.iblen.toNat).length < 262144 := by omega
  have plen := (toNat_len18 inRange).trans payloadLength
  have payload : (State.storePbuf _ (slice s.ibSeq 8 s.iblen.toNat)).pbSeq = slice s.ibSeq 8 s.ibSeq.length :=
    (State.pbSeq_storePbuf (s := s) inRange).trans (by rw [length])
  have computed : BitVec.ofNat 16 (s.iblen.toNat - 8 + 2) = be16 (byteOf s.ibSeq 4) (byteOf s.ibSeq 5) := by
    rw [show s.iblen.toNat - 8 + 2 = (be16 (byteOf s.ibSeq 4) (byteOf s.ibSeq 5)).toNat by omega,
      BitVec.ofNat_toNat, BitVec.setWidth_eq]
  refine ⟨long, by omega, rfl, plen, ?_⟩
  exact tcpFrame_of_fields (by omega) rfl rfl ((congrArg (BitVec.ofNat 16 <| · + 2) plen).trans computed) rfl rfl
    payload

/-- TCP.ENC and OB.MOV leave the frame in the input buffer. -/
theorem execSeq_tcpEnc_obMov {u : State} {b : List Byte} (countFits : u.plen.toNat ≤ 65533)
    (frameFits : u.plen.toNat + 8 ≤ u.params.obufCap) (fits : b.length ≤ u.params.ibufCap)
    (inRange : b.length < 262144) (frame : u.tcpFrame (BitVec.ofNat 16 (u.plen.toNat + 2)) = b) :
    ∃ t, execSeq [.tcpEnc, .obMov] u = .next t ∧ t.err = .ok ∧ t.iblen = len18 b.length ∧
      t.ibuf = u.ibuf.store b := by
  obtain ⟨exceeds, -⟩ | ⟨-, -, encoded⟩ := execTcpEnc_cases u
  · omega
  rw [frame] at encoded
  have moved := exec_obMov_of_obSeq
    (s := { u.storeObuf b with tlen := BitVec.ofNat 16 (u.plen.toNat + 2) }.setErr .ok)
    (State.obSeq_storeObuf inRange) fits
  exact ⟨_, (execSeq_cons (i := .tcpEnc) encoded _).trans ((execSeq_singleton _ _).trans moved), rfl, rfl, rfl⟩

/-- Settles O28: the fields TCP.DEC takes are the whole frame, which TCP.ENC puts together again. -/
theorem tcpRoundTrip : Obligations.TcpRoundTrip := by
  intro s legal
  obtain ⟨⟨ibufMin, -⟩, ⟨obufMin, -⟩, -⟩ := legal
  refine ⟨fun u decoded accepted => ?_, execTcpDec_of_mismatch⟩
  obtain ⟨long, short, params, plen, frame⟩ := tcpFrame_of_accepted decoded accepted
  have length := State.length_ibSeq s
  obtain ⟨t, run, ok, iblen, ibuf⟩ := execSeq_tcpEnc_obMov (by omega) (by rw [params]; omega) (by rw [params]; omega)
    (by omega) frame
  refine ⟨t, (execSeq_cons decoded _).trans run, ok, ?_, fun j inside => ?_⟩
  · rw [iblen, length, len18_toNat]
  · rw [ibuf, Memory.byteAt_store, if_pos (by omega), byteOf_ibSeq inside]

end Sys2Proof.Machine
end

section
/-! The stream laws (43_stream.md R164): pushes append their chunks, and pops cut the queue into its whole frames. -/

namespace Sys2Proof.Machine

/-! ### Pushing (R161) -/

/-- RX.PUSH of a chunk put in the input buffer appends that chunk. -/
theorem exec_rxPush_storeIbuf {s : State} {c : List Byte} (inRange : c.length < 262144)
    (fits : s.rxq.length + c.length ≤ s.params.rxqCap) :
    exec .rxPush (s.storeIbuf c) = .next ({ s.storeIbuf c with rxq := s.rxq ++ c }.setErr .ok) := by
  have length : (s.storeIbuf c).iblen.toNat = c.length := toNat_len18 inRange
  have input := State.ibSeq_storeIbuf (s := s) inRange
  have room : (s.storeIbuf c).rxq.length + (s.storeIbuf c).iblen.toNat ≤ (s.storeIbuf c).params.rxqCap := by
    rw [length]
    exact fits
  exact (execRxPush_of_fits room).trans (by rw [input]; rfl)

theorem pushChunks_appends (chunks : List (List Byte)) {s : State} (legal : s.params.Legal)
    (input : ∀ c ∈ chunks, c.length ≤ s.params.ibufCap)
    (queue : s.rxq.length + chunks.flatten.length ≤ s.params.rxqCap) :
    ∃ t, pushChunks chunks s = .next t ∧ t.params = s.params ∧ t.rxq = s.rxq ++ chunks.flatten := by
  induction chunks generalizing s with
  | nil => exact ⟨s, rfl, rfl, (List.append_nil _).symm⟩
  | cons c cs ih =>
    obtain ⟨⟨-, ibufMax⟩, -⟩ := id legal
    have inRange := input c List.mem_cons_self
    rw [List.flatten_cons, List.length_append] at queue
    have pushed := exec_rxPush_storeIbuf (s := s) (c := c) (by omega) (by omega)
    obtain ⟨t, ran, params, rxq⟩ := ih (s := { s.storeIbuf c with rxq := s.rxq ++ c }.setErr .ok) legal
      (fun c' h => input c' (List.mem_cons_of_mem c h))
      (by show (s.rxq ++ c).length + _ ≤ s.params.rxqCap; rw [List.length_append]; omega)
    refine ⟨t, ?_, params, ?_⟩
    · simp only [pushChunks, pushed, ran]
    · rw [rxq, List.flatten_cons, ← List.append_assoc]
      rfl

/-! ### Popping (R160, R162) -/

/-- The length field of a queue is that of the frame it begins with. -/
theorem flen_append {f : List Byte} (header : 6 ≤ f.length) (rest : List Byte) : flen (f ++ rest) = flen f := by
  rw [flen, flen, byteOf_append, byteOf_append, if_pos (by omega), if_pos (by omega)]

/-- With a whole frame at the front of the queue, RX.POP takes exactly that frame. -/
theorem exec_rxPop_wholeFrame {s : State} {f rest : List Byte} (legal : s.params.Legal) (whole : wholeFrame f)
    (queue : s.rxq = f ++ rest) :
    s.rxav = true ∧ exec .rxPop s = .next ({ s.storeIbuf f with rxq := rest }.setErr .ok) := by
  obtain ⟨header, length⟩ := whole
  obtain ⟨⟨ibufMin, -⟩, -⟩ := legal
  have bound := flen_lt f
  have cut : flen s.rxq = f.length := by rw [queue, flen_append header, length]
  have available : avail s.rxq = true := by
    rw [avail_iff, cut, queue, List.length_append]
    omega
  refine ⟨available, (execRxPop_of_fits available (by omega)).trans ?_⟩
  rw [cut, queue, List.take_left, List.drop_left]
  rfl

theorem popFrames_cuts (frames : List (List Byte)) {g : List Byte} (none : avail g = false) {s : State} {fuel : Nat}
    (legal : s.params.Legal) (whole : ∀ f ∈ frames, wholeFrame f) (queue : s.rxq = frames.flatten ++ g)
    (enough : frames.length ≤ fuel) : (popFrames fuel s).1 = frames ∧ (popFrames fuel s).2.rxq = g := by
  induction frames generalizing s fuel with
  | nil =>
    have stop : popFrames fuel s = ([], s) := by
      cases fuel with
      | zero => rfl
      | succ fuel =>
        have unavailable : s.rxav = false := by rw [State.rxav, queue]; exact none
        simp [popFrames, unavailable]
    exact stop ▸ ⟨rfl, queue⟩
  | cons f fs ih =>
    obtain ⟨fuel, rfl⟩ : ∃ k, fuel = k + 1 := Nat.exists_eq_add_one.2 (by simp at enough; omega)
    have frame := whole f List.mem_cons_self
    have inRange : f.length < 262144 := by
      have := flen_lt f
      have := frame.2
      omega
    obtain ⟨available, popped⟩ := exec_rxPop_wholeFrame (rest := fs.flatten ++ g) legal frame
      (by rw [queue, List.flatten_cons, List.append_assoc])
    obtain ⟨frames, rest⟩ := ih (s := { s.storeIbuf f with rxq := fs.flatten ++ g }.setErr .ok) (fuel := fuel) legal
      (fun f' h => whole f' (List.mem_cons_of_mem f h)) rfl (by simpa using enough)
    have kept : (State.setErr { s.storeIbuf f with rxq := fs.flatten ++ g } .ok).ibSeq = f :=
      State.ibSeq_storeIbuf inRange
    simp only [popFrames, available, if_true, popped, frames, rest, kept, and_self]

/-- Settles O31: the pushes rebuild the stream whatever the split, and each pop finds a whole frame at the front until
only the rest is left; TCP.DEC is none of the commands that write RXQ. -/
theorem streamIsCutIntoItsFrames : Obligations.StreamIsCutIntoItsFrames := by
  refine ⟨fun s chunks frames g legal empty whole none split input queue => ?cut, fun s t decoded => ?kept⟩
  case cut =>
    obtain ⟨t, pushed, params, rxq⟩ := pushChunks_appends chunks legal input (by simpa [empty, split] using queue)
    have stream : t.rxq = frames.flatten ++ g := by rw [rxq, empty, List.nil_append, split]
    exact ⟨t, pushed, stream, fun fuel enough => popFrames_cuts frames none (params ▸ legal) whole stream enough⟩
  case kept =>
    obtain ⟨-, -, -, -, -, -, rxq, -⟩ := onlyListedCommandsWriteEachRegister .tcpDec s t decoded (by decide)
    exact rxq (by decide)

end Sys2Proof.Machine
end

section
/-! What a command does not look at (10_state.md, CRC; 30_encoding.md Part B, the function byte): its checks and its
writes in two states that differ in one field. -/

namespace Sys2Proof.Machine

/-! ### CRC (R25) -/

theorem failure_crc (i : Instr) (s : State) (c : Half) : failure i { s with crc := c } = failure i s := by
  cases i <;> rfl

theorem writes_crc {i : Instr} (outside : i.mnemonic ∉ [.crcInit, .crcByte, .crcBuf, .reset]) (s : State) (c : Half) :
    writes i { s with crc := c } = { writes i s with crc := c } := by
  cases i with
  | crcInit | crcByte | crcBuf | reset => simp [Instr.mnemonic] at outside
  | _ => rfl

/-- Settles O35: neither the checks of a command nor, outside the CRC unit, its writes depend on CRC. -/
theorem onlyCrcCommandsReadCrc : Obligations.OnlyCrcCommandsReadCrc := by
  intro i s c outside
  cases h : failure i s with
  | some e => exact ⟨_, exec_of_failure h, exec_of_failure ((failure_crc i s c).trans h)⟩
  | none =>
    refine ⟨_, exec_of_pass h, (exec_of_pass ((failure_crc i s c).trans h)).trans ?_⟩
    rw [writes_crc outside]
    rfl

/-! ### The function byte (R34, R81, R83) -/

theorem failure_fn (i : Instr) (s : State) (f : Byte) : failure i { s with fn := f } = failure i s := by
  cases i <;> rfl

/-- Only the bytes of OBUF an encoder writes, and FN itself, can differ. -/
theorem writes_fn (i : Instr) (s : State) (f : Byte) :
    let t := writes i s
    let u := writes i { s with fn := f }
    u = { t with fn := u.fn, obuf := u.obuf } ∧ (u.fn = t.fn ∨ (t.fn = s.fn ∧ u.fn = f)) ∧
      (i ≠ .rtuEnc → i ≠ .tcpEnc → u.obuf = t.obuf) := by
  cases i with
  | reset | rtuDecq | rtuDecr | tcpDec => exact ⟨rfl, .inl rfl, fun _ _ => rfl⟩
  | rtuEnc => exact ⟨by simp [writes, State.storeObuf], .inr ⟨rfl, rfl⟩, fun h _ => absurd rfl h⟩
  | tcpEnc => exact ⟨rfl, .inr ⟨rfl, rfl⟩, fun _ h => absurd rfl h⟩
  | _ => exact ⟨rfl, .inr ⟨rfl, rfl⟩, fun _ _ => rfl⟩

/-- Two stored sequences of one length differ where the sequences do. -/
theorem byteOf_ne_of_byteAt_store_ne {m : Memory} {a b : List Byte} {j : Nat} (length : a.length = b.length)
    (differ : (m.store a).byteAt j ≠ (m.store b).byteAt j) : j < a.length ∧ byteOf a j ≠ byteOf b j := by
  rw [Memory.byteAt_store, Memory.byteAt_store, ← length] at differ
  split at differ
  · next inside => exact ⟨inside, differ⟩
  · exact absurd rfl differ

/-- Before its CRC, an RTU frame is address, function and payload (R81). -/
theorem byteOf_rtuFrame_message (s : State) {j : Nat} (message : j < s.plen.toNat + 2) :
    byteOf s.rtuFrame j = if j < 2 then byteOf [s.addr, s.fn] j else byteOf s.pbSeq (j - 2) := by
  show byteOf ([s.addr, s.fn] ++ s.pbSeq ++ crcBytes _) j = _
  rw [byteOf_append, if_pos (by simp; omega), byteOf_append]
  rfl

/-- The function byte is byte 1 of an RTU frame, and only the CRC behind the payload covers it (R81). -/
theorem byteOf_rtuFrame_fn {s : State} {f : Byte} {j : Nat} (inside : j < s.plen.toNat + 4)
    (differ : byteOf ({ s with fn := f } : State).rtuFrame j ≠ byteOf s.rtuFrame j) :
    j = 1 ∨ j = s.plen.toNat + 2 ∨ j = s.plen.toNat + 3 := by
  by_contra elsewhere
  have message : j < s.plen.toNat + 2 := by omega
  refine differ ((byteOf_rtuFrame_message { s with fn := f } message).trans ?_)
  rw [byteOf_rtuFrame_message s message]
  split
  · next header =>
    obtain rfl : j = 0 := by omega
    rfl
  · rfl

/-- The function byte is byte 7 of a TCP frame (R83). -/
theorem byteOf_tcpFrame_fn {s : State} {f : Byte} {l : Half} {j : Nat}
    (differ : byteOf (({ s with fn := f } : State).tcpFrame l) j ≠ byteOf (s.tcpFrame l) j) : j = 7 := by
  by_contra elsewhere
  refine differ ?_
  rw [byteOf_tcpFrame, byteOf_tcpFrame]
  split
  · next header =>
    have before : j < 7 := by omega
    interval_cases j <;> rfl
  · rfl

/-- Settles O36: the checks do not depend on FN, and of the writes only the frame of an encoder does. -/
theorem functionByteIsNeverInterpreted : Obligations.FunctionByteIsNeverInterpreted := by
  intro i s f
  cases h : failure i s with
  | some e =>
    exact ⟨_, _, exec_of_failure h, exec_of_failure ((failure_fn i s f).trans h), rfl, .inr ⟨rfl, rfl⟩,
      fun j differ => absurd rfl differ⟩
  | none =>
    obtain ⟨frame, function, obuf⟩ := writes_fn i s f
    refine ⟨_, _, exec_of_pass h, exec_of_pass ((failure_fn i s f).trans h), congrArg (State.setErr · .ok) frame,
      function, fun j differ => ?_⟩
    cases i with
    | rtuEnc =>
      obtain ⟨inside, bytes⟩ := byteOf_ne_of_byteAt_store_ne (by simp) differ
      exact .inr ⟨rfl, byteOf_rtuFrame_fn (by simpa using inside) bytes⟩
    | tcpEnc =>
      obtain ⟨-, bytes⟩ := byteOf_ne_of_byteAt_store_ne (by simp) differ
      exact .inl ⟨rfl, byteOf_tcpFrame_fn bytes⟩
    | _ => exact absurd (congrArg (Memory.byteAt · j) (obuf (by simp) (by simp))) differ

end Sys2Proof.Machine
end

section
/-! Registers over the bus (10_state.md R21 to R36, R40, R42): what a step that serves a read or a write at a register's
offset does. -/

namespace Sys2Proof.Machine

/-! ### Reads (R59) -/

/-- No register's value depends on the host's side of the bus. -/
theorem readReg_hostSide (s : State) (p : List HostEvent) (y : Reply) (r : Reg) :
    readReg { s with pending := p, reply := y } r = readReg s r := by
  cases r <;> rfl

theorem readWin_hostSide (s : State) (p : List HostEvent) (y : Reply) (i : Nat) (w : Win) :
    readWin { s with pending := p, reply := y } i w = readWin s i w := by
  cases w <;> rfl

/-- What a read returns. -/
def readReply (s : State) : Access → Reply
  | .read4 a => .word ((regAt a).elim 0 (readReg s))
  | .read1 a => .byte ((winAt s.params a).elim 0 fun (w, i) => readWin s i w)
  | .write4 _ _ | .write1 _ _ => .none

/-- A read that is no bus error changes nothing but the reply, which the host's side of the bus does not affect. -/
theorem hostAccess_read {s : State} {a : Access} (read : a.isRead = true) (uncaused : ¬BusErrorCause s.params a)
    (p : List HostEvent) (y : Reply) :
    hostAccess { s with pending := p, reply := y } a = .next { s with pending := p, reply := readReply s a } := by
  cases a with
  | read4 a =>
    obtain ⟨r, reaches⟩ := Option.ne_none_iff_exists'.1 (mt (busErrorCause_of_four_bytes rfl rfl).2 uncaused)
    simp only [hostAccess, readReply, reaches, readReg_hostSide, Option.elim]
  | read1 a =>
    have reachable := mt (busErrorCause_of_one_byte rfl rfl).2 uncaused
    push Not at reachable
    obtain ⟨w, i, reaches, -⟩ := reachable
    simp only [hostAccess, readReply, reaches, readWin_hostSide, Option.elim]
  | write4 | write1 => cases read

/-- Settles O41: a read is a bus error, whose cause the first read leaves in place, or it changes the reply alone. -/
theorem readsChangeNothing : Obligations.ReadsChangeNothing := by
  intro s a rest released read
  rw [step_access s a rest released]
  by_cases cause : BusErrorCause s.params a
  · have first := hostAccess_of_cause (s := { s with pending := rest }) cause
    have again := hostAccess_of_cause (s := { s with pending := rest, berr := true }) cause
    exact ⟨_, first, rfl, fun uncaused => absurd cause uncaused, _,
      (step_access { s with reply := a.errorReply, berr := true } a rest released).trans again, rfl⟩
  · refine ⟨_, hostAccess_read read cause rest .none, rfl, fun _ => rfl, _, ?_, rfl⟩
    exact (step_access _ a rest released).trans (hostAccess_read read cause rest .none)

section
variable {s : State} (rest : List HostEvent) (released : s.resetPin = false)
include released

theorem step_read4_regOffset (r : Reg) : step { s with pending := .access (.read4 (regOffset r)) :: rest } =
    .next { s with pending := rest, reply := .word (readReg s r) } := by
  rw [step_access s _ rest released, hostAccess_read4_regOffset, readReg_hostSide]

theorem step_write4_regOffset (r : Reg) (d : Word) :
    step { s with pending := .access (.write4 (regOffset r) d) :: rest } =
      writeReg d { s with pending := rest, reply := .none } r := by
  rw [step_access s _ rest released, hostAccess_write4_regOffset]

end

/-- A count that fits a length register reads back as itself. -/
theorem setWidth_len18 {n : Nat} (fits : n < 262144) : (len18 n).setWidth 32 = BitVec.ofNat 32 n := by
  rw [← BitVec.ofNat_toNat, toNat_len18 fits]

/-- Settles O42: each offset is its register's, and a count of a well-formed state fits its 18 bits. -/
theorem registerReads : Obligations.RegisterReads := by
  intro s rest released inv reads
  have read {r : Reg} {v : Nat} (value : readReg s r = BitVec.ofNat 32 v) : reads (regOffset r) v :=
    (step_read4_regOffset rest released r).trans (by rw [value])
  have field {r : Reg} {w : Nat} {x : BitVec w} (value : readReg s r = x.setWidth 32) : reads (regOffset r) x.toNat :=
    read (value.trans (BitVec.ofNat_toNat ..).symm)
  obtain ⟨ibufCap, obufCap, pbufCap, rxqCap⟩ := inv.caps_fit
  exact ⟨read (r := .id) rfl, read (r := .cmd) rfl, field (r := .crc) rfl, field (r := .iblen) rfl,
    field (r := .oblen) rfl, field (r := .plen) rfl, read (r := .rxlen) (setWidth_len18 (inv.rxlen.trans_lt rxqCap)),
    field (r := .tid) rfl, field (r := .pid) rfl, field (r := .tlen) rfl, field (r := .addr) rfl,
    field (r := .fn) rfl, field (r := .size) rfl, read (r := .ibcap) (setWidth_len18 ibufCap),
    read (r := .obcap) (setWidth_len18 obufCap), read (r := .pbcap) (setWidth_len18 pbufCap),
    read (r := .rxcap) (setWidth_len18 rxqCap)⟩

/-! ### Writes (R25 to R35, R42) -/

/-- Settles O43: each offset is its register's, whose write stores the implemented bits, a length only up to its
capacity. -/
theorem registerWrites : Obligations.RegisterWrites := by
  intro s rest d released legal s0 writing
  obtain ⟨⟨-, ibufMax⟩, -, ⟨-, pbufMax⟩, -⟩ := legal
  have write (r : Reg) : writing (regOffset r) = writeReg d s0 r := step_write4_regOffset rest released r d
  refine ⟨write .crc, fun fits => ⟨{ s0 with iblen := d.setWidth 18 }, ?_, toNat_setWidth_18 (by omega), rfl⟩,
    fun exceeds => ?_, fun fits => ⟨{ s0 with plen := d.setWidth 18 }, ?_, toNat_setWidth_18 (by omega), rfl⟩,
    fun exceeds => ?_, write .tid, write .pid, write .tlen, write .addr, write .fn, write .size, ?_⟩
  · exact (write .iblen).trans (congrArg Host.Outcome.next (if_pos fits))
  · exact (write .iblen).trans (congrArg Host.Outcome.next (if_neg (Nat.not_le.2 exceeds)))
  · exact (write .plen).trans (congrArg Host.Outcome.next (if_pos fits))
  · exact (write .plen).trans (congrArg Host.Outcome.next (if_neg (Nat.not_le.2 exceeds)))
  · simp only [List.forall_mem_cons]
    exact ⟨write .id, write .oblen, write .rxlen, write .ibcap, write .obcap, write .pbcap, write .rxcap,
      fun _ h => nomatch h⟩

/-! ### STATUS (R24, R40, R200) -/

theorem getLsbD_bit32_shiftLeft (b : Bool) (k : Nat) {i : Nat} (hi : i < 32) :
    (bit32 b <<< k).getLsbD i = (decide (i = k) && b) := by
  simp only [bit32, BitVec.getLsbD_shiftLeft, BitVec.getLsbD_setWidth, BitVec.getLsbD_ofBool]
  by_cases same : i = k
  · simp [same]; omega
  · simp [same]; omega

/-- STATUS, bit by bit. -/
theorem getLsbD_statusWord (s : State) {i : Nat} (hi : i < 32) :
    s.statusWord.getLsbD i = (s.err.code.getLsbD i || (decide (i = 4) && s.fe) || (decide (i = 8) && s.rxav) ||
      (decide (i = 16) && s.berr)) := by
  simp only [State.statusWord, BitVec.getLsbD_or, getLsbD_bit32_shiftLeft _ _ hi, BitVec.getLsbD_setWidth, hi,
    decide_true, Bool.true_and]

theorem extractLsb'_statusWord_err (s : State) : s.statusWord.extractLsb' 0 4 = s.err.code := by
  apply BitVec.eq_of_getLsbD_eq; intro i hi
  rw [BitVec.getLsbD_extractLsb', Nat.zero_add, getLsbD_statusWord s (by omega)]
  simp [hi, show i ≠ 4 by omega, show i ≠ 8 by omega, show i ≠ 16 by omega]

/-- The bits between the fields are 0. -/
theorem extractLsb'_statusWord_reserved (s : State) {start len : Nat}
    (between : ∀ i < len, 4 < start + i ∧ start + i ≠ 8 ∧ start + i ≠ 16 ∧ start + i < 32) :
    s.statusWord.extractLsb' start len = 0 := by
  apply BitVec.eq_of_getLsbD_eq; intro i hi
  obtain ⟨high, rxav, berr, inside⟩ := between i hi
  rw [BitVec.getLsbD_extractLsb', getLsbD_statusWord s inside, BitVec.getLsbD_of_ge _ _ (Nat.le_of_lt high)]
  simp [Nat.ne_of_gt high, rxav, berr]

/-- Settles O44: STATUS is read bit by bit, FE and RXAV being computed from ERR and the queue, and a write changes BERR
alone. -/
theorem statusReadsAndWrites : Obligations.StatusReadsAndWrites := by
  intro s rest released
  refine ⟨⟨s.statusWord, step_read4_regOffset rest released .status, ?code, ?fe,
    extractLsb'_statusWord_reserved s (by omega), ?rxav, extractLsb'_statusWord_reserved s (by omega), ?berr,
    extractLsb'_statusWord_reserved s (by omega)⟩, fun d => ?write⟩
  case code =>
    rw [extractLsb'_statusWord_err]
    cases s.err <;> rfl
  case fe =>
    rw [getLsbD_statusWord s (by decide), BitVec.getLsbD_of_ge _ _ le_rfl]
    cases h : s.err <;> simp [State.fe, Err.isFrameError, h]
  case rxav =>
    rw [getLsbD_statusWord s (by decide), BitVec.getLsbD_of_ge _ _ (by decide)]
    exact Iff.trans (by simp [State.rxav]) (avail_iff s.rxq)
  case berr =>
    rw [getLsbD_statusWord s (by decide), BitVec.getLsbD_of_ge _ _ (by decide)]
    simp
  case write =>
    have clears : (s.berr && !d.getLsbD 16) = if d.getLsbD 16 = true then false else s.berr := by
      cases d.getLsbD 16
      · exact Bool.and_true _
      · exact Bool.and_false _
    rw [← clears]
    exact step_write4_regOffset rest released .status d

end Sys2Proof.Machine
end

section
/-! Runs over the events the host has issued (20_memory.md R60): an event is served the same whatever is issued after
it. -/

namespace Sys2Proof.Machine

/-! ### Later events (R60) -/

theorem failure_pending (i : Instr) (s : State) (p : List HostEvent) :
    failure i { s with pending := p } = failure i s := by
  cases i <;> rfl

theorem writes_pending (i : Instr) (s : State) (p : List HostEvent) :
    writes i { s with pending := p } = { writes i s with pending := p } := by
  cases i <;> rfl

section
variable {s t : State}

theorem exec_pending {i : Instr} (ran : exec i s = .next t) (p : List HostEvent) :
    exec i { s with pending := p } = .next { t with pending := p } := by
  obtain ⟨e, failed, rfl⟩ | ⟨passed, rfl⟩ := exec_next ran
  · exact exec_of_failure ((failure_pending i s p).trans failed)
  · rw [exec_of_pass ((failure_pending i s p).trans passed), writes_pending]
    rfl

theorem runCommand_pending {w : Word} (ran : runCommand w s = .next t) (p : List HostEvent) :
    runCommand w { s with pending := p } = .next { t with pending := p } := by
  cases h : decode w with
  | ok i => exact (runCommand_of_decode_ok h _).trans (exec_pending ((runCommand_of_decode_ok h s).symm.trans ran) p)
  | error e =>
    obtain rfl := raise_next.1 ((runCommand_of_decode_error h s).symm.trans ran)
    exact runCommand_of_decode_error h _

theorem writeReg_pending {d : Word} {r : Reg} (wrote : writeReg d s r = .next t) (p : List HostEvent) :
    writeReg d { s with pending := p } r = .next { t with pending := p } := by
  cases r with
  | cmd => exact runCommand_pending wrote p
  | iblen | plen =>
    cases wrote
    simp only [writeReg]
    split <;> rfl
  | _ => cases wrote; rfl

theorem hostAccess_pending {a : Access} (h : hostAccess s a = .next t) (p : List HostEvent) :
    hostAccess { s with pending := p } a = .next { t with pending := p } := by
  cases a with
  | read4 a =>
    cases reaches : regAt a <;> simp only [hostAccess, reaches] at h ⊢ <;> cases h
    · rfl
    · next r => cases r <;> rfl
  | write4 a d =>
    cases reaches : regAt a <;> simp only [hostAccess, reaches] at h ⊢
    · cases h; rfl
    · exact writeReg_pending h p
  | read1 a =>
    cases reaches : winAt s.params a <;> simp only [hostAccess, reaches] at h ⊢ <;> cases h
    · rfl
    · next target => cases target.2 <;> rfl
  | write1 a v =>
    cases reaches : winAt s.params a <;> simp only [hostAccess, reaches] at h ⊢ <;> cases h
    · rfl
    · next target => cases target.1 <;> rfl

theorem serve_access (released : s.resetPin = false) (a : Access) : serve s (.access a) = hostAccess s a := by
  simp [serve, released]

theorem serve_pending {e : HostEvent} (h : serve s e = .next t) (p : List HostEvent) :
    serve { s with pending := p } e = .next { t with pending := p } := by
  cases e with
  | access a =>
    obtain asserted | released := Bool.eq_false_or_eq_true s.resetPin
    · simp [serve, asserted] at h
    · have served := hostAccess_pending ((serve_access released a).symm.trans h) p
      exact (serve_access (s := { s with pending := p }) released a).trans served
  | assertReset | releaseReset => cases h; rfl

/-- Serving an event leaves what is issued after it. -/
theorem pending_of_serve {e : HostEvent} (h : serve s e = .next t) : t.pending = s.pending := by
  have unchanged : t = { t with pending := s.pending } :=
    Host.Outcome.next.inj (h.symm.trans (serve_pending h s.pending))
  calc t.pending = ({ t with pending := s.pending } : State).pending := congrArg State.pending unchanged
    _ = s.pending := rfl

end

theorem run_succ {s t : State} (h : step s = .next t) (k : Nat) :
    Host.Core.run core (k + 1) s = Host.Core.run core k t := by
  simp only [Host.Core.run, core, h]

/-- A run over one event more begins by serving it. -/
theorem run_next_of_cons {s t : State} {e : HostEvent} {es : List HostEvent}
    (h : Host.Core.run core (es.length + 1) ({ s with pending := e :: es } : State) = .next t) :
    ∃ u : State, serve { s with pending := es, reply := .none } e = .next u ∧
      Host.Core.run core es.length u = .next t := by
  cases served : serve { s with pending := es, reply := .none } e with
  | next u => exact ⟨u, rfl, (run_succ (s := { s with pending := e :: es }) served _).symm.trans h⟩
  | fault r =>
    have stopped : step { s with pending := e :: es } = .fault r := served
    simp [Host.Core.run, core, stopped] at h
  | refused r =>
    have stopped : step { s with pending := e :: es } = .refused r := served
    simp [Host.Core.run, core, stopped] at h

/-- Settles O46: each event is served in a state whose later events it neither reads nor writes. -/
theorem earlierEventsIgnoreLaterOnes : Obligations.EarlierEventsIgnoreLaterOnes := by
  intro s t first later ran
  induction first generalizing s with
  | nil =>
    obtain rfl := Host.Outcome.next.inj ran
    exact ⟨rfl, rfl⟩
  | cons e es ih =>
    obtain ⟨u, served, rest⟩ := run_next_of_cons ran
    have pending : u.pending = es := pending_of_serve served
    have kept : ({ u with pending := es } : State) = u := by rw [← pending]
    obtain ⟨empty, tail⟩ := ih u (kept.symm ▸ rest)
    exact ⟨empty, (run_succ (s := { s with pending := e :: es ++ later }) (serve_pending served (es ++ later)) _).trans
      tail⟩

end Sys2Proof.Machine
end

section
/-! The assembler (30_encoding.md R78, R79): the words of the operand formats as numbers, and what the accesses of the
pseudo-instructions leave. -/

namespace Sys2Proof.Machine

/-! ### Operands (R78) -/

theorem wordB_ofNat (op : Byte) {n : Nat} (byte : n ≤ 255) :
    wordB op (BitVec.ofNat 8 n) = BitVec.ofNat 32 (op.toNat + 256 * n) := by
  have hop := op.isLt
  have disjoint : n <<< 8 ||| op.toNat = n <<< 8 + op.toNat := (Nat.shiftLeft_add_eq_or_of_lt hop n).symm
  apply BitVec.eq_of_toNat_eq
  simp only [wordB, BitVec.toNat_or, BitVec.toNat_shiftLeft, BitVec.toNat_setWidth, BitVec.toNat_ofNat]
  have shifted : n <<< 8 = n * 256 := Nat.shiftLeft_eq n 8
  rw [Nat.or_comm, Nat.mod_eq_of_lt (a := n) (by omega), Nat.mod_eq_of_lt (a := n) (by omega),
    Nat.mod_eq_of_lt (a := n <<< 8) (by omega), Nat.mod_eq_of_lt (a := op.toNat) (by omega), disjoint, shifted]
  omega

/-- The bit of operand S is the number the assembler writes for it. -/
theorem wordS_srcOf (op : Byte) {n : Nat} (bit : n ≤ 1) :
    wordS op (Asm.srcOf n) = BitVec.ofNat 32 (op.toNat + 256 * n) := by
  rw [← wordB_ofNat op (by omega)]
  interval_cases n <;> rfl

/-- An accepted statement of one command is one write of its word to CMD. -/
theorem assemble_op {m : Mnemonic} {n : Nat} {w : Word} (ok : Asm.operandOk m.format (some n) = true)
    (word : encode (Asm.instrOf m n) = w) : (Asm.Line.op m (some n)).assemble = some [.write4 0x00004 w] :=
  word ▸ if_pos ok

theorem assemble_op_refused {m : Mnemonic} {n : Nat} (refused : Asm.operandOk m.format (some n) = false) :
    (Asm.Line.op m (some n)).assemble = none :=
  if_neg (by simpa [Asm.Line.wf] using refused)

/-- Settles O47: the two formats with an operand check its range, and an operand in range is added to the opcode at bit
8. -/
theorem assemblerChecksOperands : Obligations.AssemblerChecksOperands := by
  intro n
  refine ⟨fun byte => ?imm, fun wide => ?wide, fun bit => ?src, fun wide => ?wideSrc⟩
  case imm =>
    have ok : Asm.operandOk .b (some n) = true := decide_eq_true byte
    exact ⟨assemble_op ok (wordB_ofNat 0x03 byte), assemble_op ok (wordB_ofNat 0x11 byte)⟩
  case wide =>
    have refused : Asm.operandOk .b (some n) = false := decide_eq_false (Nat.not_le.2 wide)
    exact ⟨assemble_op_refused refused, assemble_op_refused refused⟩
  case src =>
    have ok : Asm.operandOk .s (some n) = true := decide_eq_true bit
    exact ⟨assemble_op ok (wordS_srcOf 0x32 bit), assemble_op ok (wordS_srcOf 0x33 bit)⟩
  case wideSrc =>
    have refused : Asm.operandOk .s (some n) = false := decide_eq_false (Nat.not_le.2 wide)
    exact ⟨assemble_op_refused refused, assemble_op_refused refused⟩

/-! ### Commands over the bus (R23, R79) -/

/-- The host's writes of a sequence of commands. -/
def commandWrites (is : List Instr) : List HostEvent := (is.map Asm.command).map .access

theorem writes_hostSide (i : Instr) (s : State) :
    (writes i s).pending = s.pending ∧ (writes i s).resetPin = s.resetPin ∧ (writes i s).reply = s.reply := by
  cases i <;> exact ⟨rfl, rfl, rfl⟩

/-- A command leaves the host's side of the bus alone. -/
theorem exec_hostSide {i : Instr} {s t : State} (ran : exec i s = .next t) :
    t.pending = s.pending ∧ t.resetPin = s.resetPin ∧ t.reply = s.reply := by
  obtain ⟨e, -, rfl⟩ | ⟨-, rfl⟩ := exec_next ran
  · exact ⟨rfl, rfl, rfl⟩
  · exact writes_hostSide i s

/-- The step that serves the write of a command runs it. -/
theorem step_command {s t : State} {i : Instr} (released : s.resetPin = false)
    (ran : exec i { s with pending := [], reply := .none } = .next t) (rest : List HostEvent) :
    step { s with pending := .access (Asm.command i) :: rest } = .next { t with pending := rest } := by
  refine (step_write4_cmd s (encode i) rest released).trans ?_
  rw [runCommand_of_decode_ok (decodeOfEncodeIsTheCommand i)]
  exact exec_pending ran rest

/-- Serving the writes of a sequence of commands runs the sequence. -/
theorem run_commandWrites (is : List Instr) {s : State} (released : s.resetPin = false) :
    Host.Core.run core is.length ({ s with pending := commandWrites is, reply := .none } : State) =
      execSeq is { s with pending := [], reply := .none } := by
  induction is generalizing s with
  | nil => rfl
  | cons i is ih =>
    obtain ⟨t, ran⟩ := exists_exec_next i { s with pending := [], reply := .none }
    obtain ⟨(served : t.pending = []), (pin : t.resetPin = s.resetPin), (silent : t.reply = .none)⟩ := exec_hostSide ran
    have quiet : ({ t with pending := commandWrites is } : State) =
        { t with pending := commandWrites is, reply := .none } := by rw [← silent]
    have kept : ({ t with pending := [], reply := .none } : State) = t := by rw [← served, ← silent]
    rw [execSeq_cons ran]
    refine (run_succ (step_command released ran (commandWrites is)) _).trans ?_
    rw [quiet]
    exact (ih (pin.trans released)).trans (by rw [kept])

/-- Serving accesses that are the writes of commands runs the commands; the first of them clears the reply. -/
theorem run_accesses {as : List Access} {i : Instr} {is : List Instr} (commands : as = (i :: is).map Asm.command)
    {s : State} (released : s.resetPin = false) :
    Host.Core.run core as.length ({ s with pending := as.map .access } : State) =
      execSeq (i :: is) { s with pending := [], reply := .none } := by
  subst commands
  rw [← run_commandWrites (i :: is) released, List.length_map]
  rfl

/-! ### Loading the input buffer (R79) -/

/-- `IB.CLR` then `IB.PUSH` of each byte. -/
def loadCommands (bs : List Byte) : List Instr := .ibClr :: bs.map .ibPush

theorem loadIb_eq (bs : List Byte) : Asm.loadIb (bs.map BitVec.toNat) = (loadCommands bs).map Asm.command := by
  simp [Asm.loadIb, loadCommands, Function.comp_def]

theorem execSeq_append {is : List Instr} {s t : State} (ran : execSeq is s = .next t) (js : List Instr) :
    execSeq (is ++ js) s = execSeq js t := by
  induction is generalizing s with
  | nil =>
    cases ran
    rfl
  | cons i is ih =>
    obtain ⟨u, first⟩ := exists_exec_next i s
    rw [execSeq_cons first] at ran
    exact (execSeq_cons first _).trans (ih ran)

/-- A byte written at the end of a sequence lengthens it. -/
theorem Memory.seq_setByte_end (m : Memory) (n : Nat) (v : Byte) : (m.setByte n v).seq (n + 1) = m.seq n ++ [v] := by
  have before : (m.setByte n v).seq n = m.seq n := seq_congr fun i hi => by
    rw [byteAt_setByte, if_neg (Nat.ne_of_lt hi)]
  rw [seq_succ, before, byteAt_setByte, if_pos rfl]

theorem execSeq_ibPush (bs : List Byte) {s : State} (ok : s.err = .ok) (cap : s.params.ibufCap < 262144)
    (fits : s.iblen.toNat + bs.length ≤ s.params.ibufCap) :
    ∃ t, execSeq (bs.map .ibPush) s = .next t ∧ t.err = .ok ∧ t.ibSeq = s.ibSeq ++ bs ∧ t.params = s.params ∧
      t.pending = s.pending := by
  induction bs generalizing s with
  | nil => exact ⟨s, rfl, ok, (List.append_nil _).symm, rfl, rfl⟩
  | cons b bs ih =>
    rw [List.length_cons] at fits
    have next : (len18 (s.iblen.toNat + 1)).toNat = s.iblen.toNat + 1 := toNat_len18 (by omega)
    have pushed : exec (.ibPush b) s = .next (State.setErr
        { s with ibuf := s.ibuf.setByte s.iblen.toNat b, iblen := len18 (s.iblen.toNat + 1) } .ok) :=
      execIbPush_of_room (by omega)
    obtain ⟨t, ran, err, input, params, pending⟩ := ih (s := State.setErr
        { s with ibuf := s.ibuf.setByte s.iblen.toNat b, iblen := len18 (s.iblen.toNat + 1) } .ok) rfl cap
      (by show (len18 (s.iblen.toNat + 1)).toNat + _ ≤ s.params.ibufCap; omega)
    refine ⟨t, (execSeq_cons pushed _).trans ran, err, ?_, params, pending⟩
    rw [input]
    show (s.ibuf.setByte s.iblen.toNat b).seq (len18 (s.iblen.toNat + 1)).toNat ++ bs = s.ibSeq ++ b :: bs
    rw [next, Memory.seq_setByte_end, List.append_assoc]
    rfl

/-- The commands of IB.LOAD leave its bytes in the input buffer. -/
theorem execSeq_loadCommands (bs : List Byte) {s : State} (cap : s.params.ibufCap < 262144)
    (fits : bs.length ≤ s.params.ibufCap) :
    ∃ t, execSeq (loadCommands bs) s = .next t ∧ t.err = .ok ∧ t.ibSeq = bs ∧ t.params = s.params ∧
      t.pending = s.pending := by
  obtain ⟨t, ran, err, input, params, pending⟩ := execSeq_ibPush bs (s := { s with iblen := 0, err := .ok }) rfl cap
    (by show 0 + bs.length ≤ s.params.ibufCap; omega)
  exact ⟨t, (execSeq_cons (exec_ibClr s) _).trans ran, err, input, params, pending⟩

/-- Serving accesses that are those of a load and then of other commands runs the others on the loaded bytes. -/
theorem run_load {s : State} (inv : s.Inv) (released : s.resetPin = false) {bs : List Byte}
    (fits : bs.length ≤ s.params.ibufCap) :
    ∃ t : State, t.err = .ok ∧ t.ibSeq = bs ∧ t.params = s.params ∧ t.pending = [] ∧
      ∀ is as, as = Asm.loadIb (bs.map BitVec.toNat) ++ is.map Asm.command →
        Host.Core.run core as.length ({ s with pending := as.map .access } : State) = execSeq is t := by
  obtain ⟨ibufCap, -⟩ := inv.caps_fit
  obtain ⟨t, ran, err, input, params, pending⟩ :=
    execSeq_loadCommands bs (s := { s with pending := [], reply := .none }) ibufCap fits
  refine ⟨t, err, input, params, pending, fun is as accesses => ?_⟩
  have commands : as = (loadCommands bs ++ is).map Asm.command := by rw [accesses, loadIb_eq, List.map_append]
  exact (run_accesses commands released).trans (execSeq_append ran is)

/-- Settles O48: the accesses are the writes of the load's commands and of one command more, which reads the loaded
bytes. -/
theorem loadsLeaveTheirBytes : Obligations.LoadsLeaveTheirBytes := by
  intro s bs inv released fits running nums
  obtain ⟨ibufCap, -⟩ := inv.caps_fit
  obtain ⟨t, err, input, params, pending, run⟩ := run_load inv released fits
  refine ⟨⟨t, ?ibLoad, err, input, pending⟩, fun payload => ?pbLoad, ?crcOf⟩
  case ibLoad => exact run [] _ (List.append_nil _).symm
  case pbLoad =>
    have copied : exec (.tcpSetp .input) t = .next ((t.storePbuf bs).setErr .ok) :=
      input ▸ execTcpSetp_of_fits (src := .input) (by show t.ibSeq.length ≤ _; rw [input, params]; exact payload)
    exact ⟨_, (run [.tcpSetp .input] _ rfl).trans ((execSeq_singleton _ _).trans copied), rfl, input,
      State.pbSeq_storePbuf (by omega)⟩
  case crcOf =>
    exact ⟨_, (run [.crcBuf] _ rfl).trans ((execSeq_singleton _ _).trans (exec_crcBuf t)), rfl, input,
      congrArg checksum input⟩

end Sys2Proof.Machine
end
